-- ==== Sys2Proof/Word.lean ====
section
/-!
DEFINITION. The word types of the hardware (spec/00_scope.md rules R6, R7): every cell, register and operand is an
unsigned byte; the program counter and the information field of a fault record are nine bits wide.
-/

namespace Sys2Proof

/-- An unsigned byte, 0 to 255: a memory cell, a register, an opcode or an operand (R6, R7, R21, R33). -/
abbrev Byte := BitVec 8

/-- Nine bits: the program counter (0 to 256, R25) and the `info` field of a fault record (R178). -/
abbrev Word9 := BitVec 9

/-- `zext_9(v)` of R7: a byte widened to nine bits with a zero on top. -/
abbrev zext9 (v : Byte) : Word9 := v.setWidth 9

end Sys2Proof
end

