-- ==== Sys2Proof/Config.lean ====
section
/-!
DEFINITION. What is fixed for a machine and is no state of it: the SHAPE of the one open parameter, `OPC` of
spec/30_encoding.md R89. (The sizes of spec/00_scope.md R6 are constants of the hardware: 256 cells, 8 registers.) The
values `OPC` takes by default stand in Sys2Proof/Decode.lean (`defaultOpc`), beside the decoder that reads them. The
hardware leaves no value open after an instruction (spec/93_implementation_defined.md), so there is no free value
here.
-/

namespace Sys2Proof

/-- The parameter `OPC` of R89: one opcode byte for each of the eight mnemonics whose byte the source does not give.
HLT's byte is stated by the source (R87) and is no part of the parameter. -/
structure Opc where
  ldi  : Byte
  prn  : Byte
  mul  : Byte
  add  : Byte
  push : Byte
  pop  : Byte
  call : Byte
  ret  : Byte
  deriving DecidableEq, Repr

end Sys2Proof
end

