-- ==== Sys2Proof/Syntax.lean ====
section
/-!
DEFINITION. The instructions as syntax (spec/30_encoding.md R80 to R84, R88): nine, one constructor per row of
spec/opcode_table.json. A register operand is kept as THE WHOLE OPERAND BYTE: R82 makes the index an unsigned value 0
to 255 that the instruction itself checks, so `PUSH R9` is an instruction (it raises InvalidRegister), not a decoding
error.
-/

namespace Sys2Proof

/-- An instruction with its operand bytes (R81). -/
inductive Instr where
  /-- HLT, format F0 (R115). -/
  | hlt
  /-- LDI r, imm, format F2RI (R130). -/
  | ldi (r imm : Byte)
  /-- PRN r, format F1R (R131). -/
  | prn (r : Byte)
  /-- MUL ra, rb, format F2RR (R141). -/
  | mul (ra rb : Byte)
  /-- ADD ra, rb, format F2RR (R142). -/
  | add (ra rb : Byte)
  /-- PUSH r, format F1R (R151). -/
  | push (r : Byte)
  /-- POP r, format F1R (R152). -/
  | pop (r : Byte)
  /-- CALL r, format F1R (R160). -/
  | call (r : Byte)
  /-- RET, format F0 (R161). -/
  | ret
  deriving DecidableEq, Repr

/-- The mnemonic alone: a row of the opcode map of R88. -/
inductive Op where
  | hlt | ldi | prn | mul | add | push | pop | call | ret
  deriving DecidableEq, Repr

/-- The four formats of R81. -/
inductive Format where
  /-- `F0`: the opcode byte only. -/
  | f0
  /-- `F1R`: opcode, register index. -/
  | f1r
  /-- `F2RR`: opcode, register index, register index. -/
  | f2rr
  /-- `F2RI`: opcode, register index, immediate. -/
  | f2ri
  deriving DecidableEq, Repr

end Sys2Proof
end

