-- ==== Sys2Proof/WellFormed.lean ====
section
/-!
DEFINITION. Well-formed instructions (spec/30_encoding.md R92): within a legal opcode the only illegal operands are
register-index bytes 8 to 255. Every immediate is legal, and so is every combination of legal registers. An
ill-formed instruction is still an instruction: running it raises InvalidRegister (R82, R172).
-/

namespace Sys2Proof

/-- A register-index byte that names a register: 0 to 7 (R82). -/
def isRegIndex (i : Byte) : Bool := decide (i.toNat < 8)

/-- The register-index operand bytes of an instruction, operand a first (R81). -/
def Instr.regOperands : Instr → List Byte
  | .hlt => []
  | .ldi r _ => [r]
  | .prn r => [r]
  | .mul ra rb => [ra, rb]
  | .add ra rb => [ra, rb]
  | .push r => [r]
  | .pop r => [r]
  | .call r => [r]
  | .ret => []

/-- Every register operand names a register (R92). -/
def Instr.wellFormed (i : Instr) : Bool := i.regOperands.all isRegIndex

end Sys2Proof
end

