-- ==== Sys2Proof/Decode.lean ====
section
/-!
DEFINITION. Encoding (spec/30_encoding.md): the opcode map with its default bytes, the formats and lengths, the decoder
(total, rejecting by name) and the encoder. Decoding is an exact match of the whole opcode byte (R88), depends on the
three fetched bytes and the constant `OPC` only (R93), and uses no bit field inside the opcode byte (R86).
-/

namespace Sys2Proof

/-! ## Formats and lengths (R81, R85) -/

/-- The format of each instruction (R81). -/
def Op.format : Op → Format
  | .hlt | .ret => .f0
  | .prn | .push | .pop | .call => .f1r
  | .mul | .add => .f2rr
  | .ldi => .f2ri

/-- The length in bytes of each format (R81). -/
def Format.length : Format → Nat
  | .f0 => 1
  | .f1r => 2
  | .f2rr => 3
  | .f2ri => 3

/-- The length is a function of the opcode alone (R85). -/
def Op.length (op : Op) : Nat := op.format.length

/-- The mnemonic of an instruction. -/
def Instr.op : Instr → Op
  | .hlt => .hlt
  | .ldi _ _ => .ldi
  | .prn _ => .prn
  | .mul _ _ => .mul
  | .add _ _ => .add
  | .push _ => .push
  | .pop _ => .pop
  | .call _ => .call
  | .ret => .ret

/-! ## The opcode map (R87 to R89) -/

/-- HLT's opcode byte, the only one the source states (R87). -/
def opcHlt : Byte := 0b00000001#8

/-- The default values of `OPC` (R88). PRESUMED (general knowledge, spec/93 G1): unsafe; log entry 1. -/
def defaultOpc : Opc where
  ldi  := 0b10000010#8
  prn  := 0b01000111#8
  mul  := 0b10100010#8
  add  := 0b10100000#8
  push := 0b01000101#8
  pop  := 0b01000110#8
  call := 0b01010000#8
  ret  := 0b00010001#8

/-- The opcode byte of each mnemonic under `OPC` (R88). -/
def opcodeByte (opc : Opc) : Op → Byte
  | .hlt => opcHlt
  | .ldi => opc.ldi
  | .prn => opc.prn
  | .mul => opc.mul
  | .add => opc.add
  | .push => opc.push
  | .pop => opc.pop
  | .call => opc.call
  | .ret => opc.ret

/-- What R89 asks of every `OPC`: the eight values are pairwise different and none of them is HLT's byte. -/
abbrev validOpc (opc : Opc) : Prop :=
  [opcHlt, opc.ldi, opc.prn, opc.mul, opc.add, opc.push, opc.pop, opc.call, opc.ret].Nodup

/-- The dispatch table of the eight handlers (R88), in the order of the table; HLT is "handled by engine, not a
dispatched handler" (R112) and so has no row. -/
def opcodeMap (opc : Opc) : List (Byte × Op) :=
  [(opc.ldi, .ldi), (opc.prn, .prn), (opc.mul, .mul), (opc.add, .add),
   (opc.push, .push), (opc.pop, .pop), (opc.call, .call), (opc.ret, .ret)]

/-- HLT is recognised before the opcode map is consulted (R112); then the map is looked up (R113). -/
def findOp (opc : Opc) (opcode : Byte) : Option Op :=
  if opcode = opcHlt then some .hlt else (opcodeMap opc).lookup opcode

/-! ## The decoder -/

/-- Why bytes are no instruction. -/
inductive DecodeError where
  /-- The opcode byte is none of the nine (R90). The engine turns it into the fault UnknownOpcode (R113). Safe. -/
  | unknownOpcode (opcode : Byte)
  /-- A list of bytes ends inside an instruction. Only `decodeBytes`, which walks a program, answers it; the engine
  always has three bytes (R110). Safe. -/
  | truncated
  deriving DecidableEq, Repr

/-- The instruction a mnemonic makes of the two operand bytes; the operand bytes its format does not use are ignored
(R84). -/
def Op.withOperands (op : Op) (a b : Byte) : Instr :=
  match op with
  | .hlt => .hlt
  | .ldi => .ldi a b
  | .prn => .prn a
  | .mul => .mul a b
  | .add => .add a b
  | .push => .push a
  | .pop => .pop a
  | .call => .call a
  | .ret => .ret

/-- Decoding the fetched triple (R88, R90, R93). -/
def decode (opc : Opc) (opcode a b : Byte) : Except DecodeError Instr :=
  match findOp opc opcode with
  | none => .error (.unknownOpcode opcode)
  | some op => .ok (op.withOperands a b)

/-- Decoding the first instruction of a list of bytes, with the bytes after it (R85: the opcode byte alone gives the
length). -/
def decodeBytes (opc : Opc) (bytes : List Byte) : Except DecodeError (Instr × List Byte) :=
  match bytes with
  | [] => .error .truncated
  | opcode :: rest =>
    match findOp opc opcode with
    | none => .error (.unknownOpcode opcode)
    | some op =>
      if rest.length + 1 < op.length then .error .truncated
      else .ok (op.withOperands (rest.getD 0 0) (rest.getD 1 0), rest.drop (op.length - 1))

/-! ## The encoder -/

/-- The operand bytes of an instruction, in address order (R80, R81). -/
def Instr.operandBytes : Instr → List Byte
  | .hlt => []
  | .ldi r imm => [r, imm]
  | .prn r => [r]
  | .mul ra rb => [ra, rb]
  | .add ra rb => [ra, rb]
  | .push r => [r]
  | .pop r => [r]
  | .call r => [r]
  | .ret => []

/-- The bytes of an instruction at increasing addresses: opcode, operand a, operand b (R52, R80). -/
def encode (opc : Opc) (i : Instr) : List Byte := opcodeByte opc i.op :: i.operandBytes

/-! ## Words as spec/opcode_table.json numbers them -/

/-- Byte `k` of the `nbits`-bit word `w`, byte 0 the first in memory; the bits from `nbits` up are 0. -/
def tableByte (nbits w k : Nat) : Byte := BitVec.ofNat 8 (w % 2 ^ nbits / 256 ^ k)

/-- The instruction the decoder reads from a word of the opcode table, under the default `OPC`. -/
def decodeTableWord (nbits w : Nat) : Option Instr :=
  match decode defaultOpc (tableByte nbits w 0) (tableByte nbits w 1) (tableByte nbits w 2) with
  | .ok i => some i
  | .error _ => none

end Sys2Proof
end

