-- ==== Sys2Proof/Machine/State.lean ====
section
/-!
DEFINITION. The state of the block (spec/10_state.md R20: "six items, and nothing else"), as plain data, and its
reset value (R41). Every item has the name the spec gives it.
-/

namespace Sys2Proof.Machine

/-- The run state of R30. `halted` and `faulted` are terminal (R116). -/
inductive RunState where
  | running
  | halted
  | faulted
  deriving DecidableEq, Repr

/-- The seven error kinds of R170. -/
inductive ErrorKind where
  /-- A memory address outside `[0, 256)` (R171). Raised by the fetch. -/
  | outOfBounds
  /-- A register index outside `[0, 8)` (R172). Raised by LDI, PRN, MUL, ADD, PUSH, POP, CALL. -/
  | invalidRegister
  /-- An opcode byte outside the opcode map (R173). Raised by the dispatch. -/
  | unknownOpcode
  /-- The ALU's error for an operation outside its set (R174); kept for the taxonomy, raised by nothing. -/
  | unsupportedOperation
  /-- The external loader's error for its program text (R177); kept for the taxonomy, raised by nothing in the block. -/
  | invalidProgramEncoding
  /-- The stack pointer would go below 0 (R175). Raised by PUSH and CALL. -/
  | stackOverflow
  /-- The stack pointer would go above 255 (R176). Raised by POP and RET. -/
  | stackUnderflow
  deriving DecidableEq, Repr

/-- The fault record of R31: kind, the `pc` when the error was raised, and its information. -/
structure FaultRecord where
  kind : ErrorKind
  pc   : Word9
  info : Word9
  deriving DecidableEq, Repr

/-- Memory as the list of the cells that do not hold 0, in rising order of address (the canonical form `Memory.wf` of
Machine/Ops.lean); an address not listed reads as 0, the reset value R41 gives every cell. -/
abbrev Memory := List Host.Cell

/-- The whole state of the block (R20). -/
structure State where
  /-- `mem`: 256 cells of 8 bits (R33). -/
  mem   : Memory
  /-- `x[0]` to `x[7]`: the registers, `x[7]` the stack pointer (R21, R23). -/
  x     : Vector Byte 8
  /-- `pc`: nine bits, 0 to 256 (R25). -/
  pc    : Word9
  /-- `state`: the run state (R30). -/
  state : RunState
  /-- `fault`: empty, or the record of the one error of the run (R31). -/
  fault : Option FaultRecord
  /-- `out`: the bytes emitted on the observation channel so far, the first emitted first (R38). -/
  out   : List Byte
  deriving DecidableEq, Repr

/-- Reasons for which a step would stop WITHOUT a next state. There are none on this hardware, so the type is empty:
every error of the block has an entry the spec describes (R180) and is therefore a NEXT state, with `fault` written and
`state` at `faulted`; and a terminal state is absorbing (R116). Safe: nothing is left out. Log entries 2 and 3. -/
inductive Fault where
  deriving DecidableEq, Repr

/-- Reasons for which the model gives an instruction no meaning. -/
inductive Refusal where
  /-- Raised by an arm of `exec` whose instruction has no meaning yet, with its mnemonic. No arm raises it now. Safe. -/
  | notModelled (mnemonic : String)
  deriving DecidableEq, Repr

/-- The state after reset (R41): memory all 0, `x[0..6] = 0`, `x[7] = 0xF4`, `pc = 0`, `state = Running`, `fault` and
`out` empty. Every value is the spec's. -/
def State.reset : State where
  mem   := []
  x     := #v[0x00#8, 0x00#8, 0x00#8, 0x00#8, 0x00#8, 0x00#8, 0x00#8, 0xF4#8]
  pc    := 0#9
  state := .running
  fault := none
  out   := []

end Sys2Proof.Machine
end

