-- ==== Sys2Proof/Machine/Ops.lean ====
section
/-!
DEFINITION. The named operations over the state (spec/00_scope.md R9): register access, memory access, the program
counter, the observation channel, and RAISING AN ERROR (spec/60_exceptions.md R180), written once.

Every instruction is an `Attempt`: it either raises, or answers the state with all its writes made. `finish` turns the
attempt into the outcome of a step, and gives `raise` the state AT THE START of the instruction, so that a faulting
instruction commits nothing (R117, R180) by construction. There is no return from an error (R182): only reset leaves
the state `raise` makes.
-/

namespace Sys2Proof.Machine

/-- The outcome of a step of this machine. -/
abbrev Result := Host.Outcome State Fault Refusal

/-- What an instruction raises: `raise K(info)` of R9. -/
structure Raised where
  kind : ErrorKind
  info : Word9
  deriving DecidableEq, Repr

/-- A computation that may raise. -/
abbrev Attempt (α : Type) := Except Raised α

/-- Fault entry, the only one (R180): no other write, `fault` gets (kind, pc, info), `state` becomes `Faulted`. -/
def raise (e : Raised) (s : State) : State :=
  { s with fault := some { kind := e.kind, pc := s.pc, info := e.info }, state := .faulted }

/-- The end of a cycle begun in `s`: all of an instruction's writes, or none of them and the fault entry (R117). -/
def finish (s : State) (r : Attempt State) : Result :=
  match r with
  | .ok t => .next t
  | .error e => .next (raise e s)

/-! ## Registers (R21 to R24) -/

/-- The index of the stack pointer, `SP_INDEX` of R6 (decision D2 of the spec). -/
def spIndex : Fin 8 := 7

/-- `x[i]`. -/
def State.reg (s : State) (i : Fin 8) : Byte := s.x[i]

/-- `x[i] <- v`. No register is hard-wired (R21). -/
def State.setReg (s : State) (i : Fin 8) (v : Byte) : State := { s with x := s.x.set i v }

/-- `sp`, another name for `x[7]` (R23). -/
def State.sp (s : State) : Byte := s.reg spIndex

/-- `sp <- v`, a write of `x[7]` through the same interface as any register (R23). -/
def State.setSp (s : State) (v : Byte) : State := s.setReg spIndex v

/-- The register file's index check (R22): an index outside `[0, 8)` raises InvalidRegister; it is not masked. -/
def checkReg (i : Byte) : Attempt (Fin 8) :=
  if h : i.toNat < 8 then .ok ⟨i.toNat, h⟩ else .error ⟨.invalidRegister, zext9 i⟩

/-! ## The program counter and the observation channel -/

/-- `pc <- pc + n`, the relative advance of R26. With `pc` at most 253, where an instruction can run (R110), the sum is
exact in nine bits (R27). -/
def State.advance (s : State) (n : Nat) : State := { s with pc := s.pc + BitVec.ofNat 9 n }

/-- `pc <- zext_9(v)`, the absolute set of CALL and RET (R26). -/
def State.jump (s : State) (v : Byte) : State := { s with pc := zext9 v }

/-- `Emit(v)`: append a byte to the observation channel (R9, R38). -/
def State.emit (s : State) (v : Byte) : State := { s with out := s.out ++ [v] }

/-! ## Memory (R50 to R54) -/

/-- What an address that is not listed reads as: 0, the reset value of every cell (R41). -/
def unlistedByte : Byte := 0x00#8

/-- The cell at an address. -/
def Memory.read (m : Memory) (a : Nat) : Byte :=
  match m with
  | [] => unlistedByte
  | c :: rest => if c.1 = a then c.2 else Memory.read rest a

/-- The list without the cell at an address: the address then reads as 0. -/
def Memory.erase (m : Memory) (a : Nat) : Memory := m.filter (fun c => c.1 != a)

/-- A cell put before the first cell of a higher address. -/
def Memory.insert (m : Memory) (a : Nat) (v : Byte) : Memory :=
  match m with
  | [] => [(a, v)]
  | c :: rest => if a < c.1 then (a, v) :: c :: rest else c :: Memory.insert rest a v

/-- A write, in canonical form: the value an unlisted address reads as is not listed. -/
def Memory.write (m : Memory) (a : Nat) (v : Byte) : Memory :=
  if v = unlistedByte then Memory.erase m a else Memory.insert (Memory.erase m a) a v

/-- The canonical form from address `lo` up: addresses strictly rising, inside the 256 cells, none holding what an
unlisted address reads as. -/
def Memory.wfFrom (lo : Nat) (m : Memory) : Bool :=
  match m with
  | [] => true
  | c :: rest =>
    decide (lo ≤ c.1) && decide (c.1 < 256) && decide (c.2 ≠ unlistedByte) && Memory.wfFrom (c.1 + 1) rest

/-- The canonical form: equal memories are equal lists. -/
def Memory.wf (m : Memory) : Bool := Memory.wfFrom 0 m

/-- `mem[a]` as a reader outside the block sees it. -/
def State.byteAt (s : State) (a : Nat) : Byte := Memory.read s.mem a

/-- `MemRead(addr, 1)` of R9: an address of 256 or more raises OutOfBounds(addr); it is not reduced (R51). -/
def memRead (addr : Nat) (s : State) : Attempt Byte :=
  if addr < 256 then .ok (s.byteAt addr) else .error ⟨.outOfBounds, BitVec.ofNat 9 addr⟩

/-- `MemWrite(addr, 1, v)` of R9. -/
def memWrite (addr : Nat) (v : Byte) (s : State) : Attempt State :=
  if addr < 256 then .ok { s with mem := Memory.write s.mem addr v }
  else .error ⟨.outOfBounds, BitVec.ofNat 9 addr⟩

end Sys2Proof.Machine
end

