-- ==== Sys2Proof/Machine/Flags.lean ====
section
/-!
DEFINITION. The ALU (spec/42_alu_mul_add.md R140, R143). This hardware HAS NO FLAGS (spec/10_state.md R28): the ALU
gives a result and nothing else, and the bits above bit 7 of the true sum or product are kept nowhere. So this file,
where a machine with flags would compute them, holds the result alone.
-/

namespace Sys2Proof.Machine

/-- The ALU's closed set of operations (R140). An operation outside it cannot be asked for, so UnsupportedOperation is
unreachable (R144). -/
inductive AluOp where
  | add
  | mul
  deriving DecidableEq, Repr

/-- The exact result, before it is narrowed. -/
def aluExact (op : AluOp) (u v : Byte) : Nat :=
  match op with
  | .add => u.toNat + v.toNat
  | .mul => u.toNat * v.toNat

/-- `ALU(op, u, v)`: the exact result modulo 256 (R140). -/
def alu (op : AluOp) (u v : Byte) : Byte := BitVec.ofNat 8 (aluExact op u v)

/-- `apply(operation, dest, src)` of R140 as MUL and ADD use it: check operand a, then operand b, then write
`x[a] <- ALU(op, x[a], x[b])` and advance by the three bytes of the format. -/
def aluApply (op : AluOp) (ra rb : Byte) (s : State) : Attempt State := do
  let a ← checkReg ra
  let b ← checkReg rb
  .ok ((s.setReg a (alu op (s.reg a) (s.reg b))).advance 3)

end Sys2Proof.Machine
end

