-- ==== Sys2Proof/Machine/Arith.lean ====
section
/-!
DEFINITION. MUL and ADD (spec/42_alu_mul_add.md R141, R142), each one line over the ALU.
-/

namespace Sys2Proof.Machine

/-- MUL ra, rb: `x[ra] <- (x[ra] * x[rb]) mod 256`, `pc <- pc + 3` (R141). -/
def execMul (ra rb : Byte) (s : State) : Result := finish s (aluApply .mul ra rb s)

/-- ADD ra, rb: `x[ra] <- (x[ra] + x[rb]) mod 256`, `pc <- pc + 3` (R142). -/
def execAdd (ra rb : Byte) (s : State) : Result := finish s (aluApply .add ra rb s)

end Sys2Proof.Machine
end

