-- ==== Sys2Proof/Machine/Halt.lean ====
section
/-!
DEFINITION. HLT (spec/40_engine_cycle_hlt.md R115).
-/

namespace Sys2Proof.Machine

/-- HLT: `state <- Halted`; `pc`, `x`, `mem` and `out` unchanged (R115). -/
def execHlt (s : State) : Result := .next { s with state := .halted }

end Sys2Proof.Machine
end

