-- ==== Sys2Proof/Machine/Operands.lean ====
section
/-!
DEFINITION. The operand forms. A register operand is the whole byte, checked by `checkReg` of Machine/Ops.lean (R82);
the one immediate is the whole byte, used as it is (R83). The one addressing mode (spec/43_stack_push_pop.md R150) is
register-indirect through `x[7]`: pre-decrement for a write, post-increment for a read, each step guarded (R175,
R176).
-/

namespace Sys2Proof.Machine

/-- The immediate operand of LDI: the byte itself, neither extended nor scaled (R83). -/
def immediate (b : Byte) : Byte := b

/-- `x[7] <- x[7] - 1`; at 0 it raises StackOverflow(0) instead (R151, R160, R175). -/
def decSp (s : State) : Attempt State :=
  if s.sp = 0x00#8 then .error ⟨.stackOverflow, 0#9⟩ else .ok (s.setSp (s.sp - 1#8))

/-- `x[7] <- x[7] + 1`; at 255 it raises StackUnderflow(255) instead (R152, R161, R176). -/
def incSp (s : State) : Attempt State :=
  if s.sp = 0xFF#8 then .error ⟨.stackUnderflow, 255#9⟩ else .ok (s.setSp (s.sp + 1#8))

/-- The address a push stores to: `sp - 1` (R150). -/
def pushAddr (s : State) : Nat := (s.sp - 1#8).toNat

/-- The address a pop reads: `sp` (R150). -/
def popAddr (s : State) : Nat := s.sp.toNat

/-- A push: decrement, then store at the new `sp`. The byte is a function of the state AFTER the decrement, since R9
executes the lines in order and the operand may be `x[7]` itself (R151, R160). -/
def pushByte (byte : State → Byte) (s : State) : Attempt State := do
  let t ← decSp s
  memWrite (pushAddr s) (byte t) t

/-- The byte a pop reads; the increment is `incSp`, after the destination has been written (R152, R161). -/
def popByte (s : State) : Attempt Byte := memRead (popAddr s) s

end Sys2Proof.Machine
end

