-- ==== Sys2Proof/Machine/LoadPrint.lean ====
section
/-!
DEFINITION. LDI and PRN (spec/41_load_immediate_print.md R130, R131).
-/

namespace Sys2Proof.Machine

/-- LDI r, imm: `x[r] <- imm`, `pc <- pc + 3` (R130). -/
def execLdi (r imm : Byte) (s : State) : Result := finish s do
  let d ← checkReg r
  .ok ((s.setReg d (immediate imm)).advance 3)

/-- PRN r: `Emit(x[r])`, `pc <- pc + 2` (R131). -/
def execPrn (r : Byte) (s : State) : Result := finish s do
  let d ← checkReg r
  .ok ((s.emit (s.reg d)).advance 2)

end Sys2Proof.Machine
end

