-- ==== Sys2Proof/Machine/Stack.lean ====
section
/-!
DEFINITION. PUSH and POP (spec/43_stack_push_pop.md R151, R152).
-/

namespace Sys2Proof.Machine

/-- PUSH r: `sp <- sp - 1`, `mem[sp] <- x[r]` read after the decrement, `pc <- pc + 2` (R151). -/
def execPush (r : Byte) (s : State) : Result := finish s do
  let d ← checkReg r
  let t ← pushByte (fun u => u.reg d) s
  .ok (t.advance 2)

/-- POP r: `x[r] <- mem[sp]`, then `sp <- sp + 1`, `pc <- pc + 2` (R152). For `r = 7` the increment is of the popped
byte, because it reads `x[7]` after the first write. -/
def execPop (r : Byte) (s : State) : Result := finish s do
  let d ← checkReg r
  let v ← popByte s
  let t ← incSp (s.setReg d v)
  .ok (t.advance 2)

end Sys2Proof.Machine
end

