-- ==== Sys2Proof/Machine/Subroutine.lean ====
section
/-!
DEFINITION. CALL and RET (spec/44_subroutine_call_ret.md R160, R161).
-/

namespace Sys2Proof.Machine

/-- The return address CALL stores: its own address plus 2 (R160). An instruction that has been fetched has `pc` at
most 253, so the sum fits a byte. -/
def returnAddress (s : State) : Byte := BitVec.ofNat 8 (s.pc.toNat + 2)

/-- CALL r: push `pc + 2`, then `pc <- x[r]` read after the decrement (R160). -/
def execCall (r : Byte) (s : State) : Result := finish s do
  let d ← checkReg r
  let t ← pushByte (fun _ => returnAddress s) s
  .ok (t.jump (t.reg d))

/-- RET: `pc <- mem[sp]`, then `sp <- sp + 1` (R161). -/
def execRet (s : State) : Result := finish s do
  let v ← popByte s
  let t ← incSp s
  .ok (t.jump v)

end Sys2Proof.Machine
end

