-- ==== Sys2Proof/Machine/Engine.lean ====
section
/-!
DEFINITION. The engine's cycle (spec/40_engine_cycle_hlt.md R110 to R118), for any `OPC`, and placing an instruction
where the next fetch reads it.
-/

namespace Sys2Proof.Machine

/-- Fetch: three reads at `pc`, `pc + 1`, `pc + 2`, whatever the instruction needs; the sums are not reduced and the
first read that fails raises (R110, R118). -/
def fetch (s : State) : Attempt (Byte × Byte × Byte) := do
  let opcode ← memRead s.pc.toNat s
  let a ← memRead (s.pc.toNat + 1) s
  let b ← memRead (s.pc.toNat + 2) s
  .ok (opcode, a, b)

/-- Decode and execute a fetched triple (R112 to R114): an opcode byte outside the map raises UnknownOpcode(opcode). -/
def dispatch (opc : Opc) (opcode a b : Byte) (s : State) : Result :=
  match decode opc opcode a b with
  | .ok i => exec i s
  | .error _ => finish s (.error ⟨.unknownOpcode, zext9 opcode⟩)

/-- One cycle of a running engine (R111). -/
def runCycle (opc : Opc) (s : State) : Result :=
  match fetch s with
  | .error e => finish s (.error e)
  | .ok f => dispatch opc f.1 f.2.1 f.2.2 s

/-- One step of the machine under `OPC`. `Halted` and `Faulted` are absorbing: no fetch, no state change (R116); the
step that leaves everything as it is stands for "there is no step". DESIGN CHOICE, safe: log entry 3. -/
def cycle (opc : Opc) (s : State) : Result :=
  match s.state with
  | .running => runCycle opc s
  | .halted => .next s
  | .faulted => .next s

/-- A byte stored where the load port can store it; an address past the last cell holds nothing. -/
def State.placeByte (s : State) (a : Nat) (v : Byte) : State :=
  if a < 256 then { s with mem := Memory.write s.mem a v } else s

/-- The three bytes of a table word stored at `pc`, `pc + 1`, `pc + 2`, where the next fetch reads. -/
def State.placeWord (s : State) (nbits w : Nat) : State :=
  ((s.placeByte s.pc.toNat (tableByte nbits w 0)).placeByte (s.pc.toNat + 1) (tableByte nbits w 1)).placeByte
    (s.pc.toNat + 2) (tableByte nbits w 2)

end Sys2Proof.Machine
end

