-- ==== Sys2Proof/Machine/Step.lean ====
section
/-!
DEFINITION. The step of the machine, with the default `OPC` (spec/30_encoding.md R88, R89), and the placing of one
instruction for the next fetch.
-/

namespace Sys2Proof.Machine

/-- One step: the cycle of R111 under the default opcode values (log entry 1). -/
def step (s : State) : Host.Outcome State Fault Refusal := cycle defaultOpc s

/-- `s` with a word of the opcode table stored where the next fetch reads it. Only memory changes: a running machine
with `pc` at most 253 then runs exactly that instruction. It stands for the load port (R37); log entry 4. -/
def State.withFetchWord (s : State) (nbits w : Nat) : State := s.placeWord nbits w

end Sys2Proof.Machine
end

