-- ==== Sys2Proof/Machine/Ports.lean ====
section
/-!
DEFINITION. The interface of the block (spec/10_state.md R36 to R40; spec/70_reset_and_hazards.md R213 to R216): the
status and observation ports as functions of the state, the load port, and the order of a run's events (reset, load,
start, run). None of it can be reached by an instruction.
-/

namespace Sys2Proof.Machine

/-! ## The status port (R30, R36, R39, R178) -/

/-- The two bits of the run state; 3 never occurs (R30). -/
def runStateCode : RunState → BitVec 2
  | .running => 0#2
  | .halted => 1#2
  | .faulted => 2#2

/-- The cause codes of R178; 0 is "no fault". -/
def errorCode : ErrorKind → BitVec 3
  | .outOfBounds => 1#3
  | .invalidRegister => 2#3
  | .unknownOpcode => 3#3
  | .unsupportedOperation => 4#3
  | .invalidProgramEncoding => 5#3
  | .stackOverflow => 6#3
  | .stackUnderflow => 7#3

/-- The status group of R36. `faultPc` and `faultInfo` are "meaningful only while `state = Faulted`": with no fault
recorded they carry no value. -/
structure StatusPort where
  state     : BitVec 2
  faultCode : BitVec 3
  faultPc   : Option Word9
  faultInfo : Option Word9
  deriving DecidableEq, Repr

/-- What the status group shows (R36, R39). -/
def statusPort (s : State) : StatusPort where
  state     := runStateCode s.state
  faultCode := match s.fault with | none => 0#3 | some f => errorCode f.kind
  faultPc   := s.fault.map (fun f => f.pc)
  faultInfo := s.fault.map (fun f => f.info)

/-! ## The observation port (R36, R38) -/

/-- `out_valid` and `out_data` of the cycle from `s` to `t`: the byte the cycle emitted, if it emitted one. -/
def outPort (s t : State) : Option Byte := (t.out.drop s.out.length).head?

/-! ## The load port and the launch state (R37, R214, R215) -/

/-- One write of the load port: `mem[load_addr] <- load_data` (R36). -/
def loadCell (addr data : Byte) (s : State) : State := { s with mem := Memory.write s.mem addr.toNat data }

/-- Bytes written from address `i` up, in order; a byte past the last cell fails as the memory's write does (R37). -/
def loadFrom (i : Nat) (bytes : List Byte) (s : State) : Attempt State :=
  match bytes with
  | [] => .ok s
  | b :: rest =>
    match memWrite i b s with
    | .error e => .error e
    | .ok t => loadFrom (i + 1) rest t

/-- The launch state of a program (R215): reset, then its bytes loaded from address 0. A program of more than 256 bytes
has none (D14). -/
def launch (program : List Byte) : Attempt State := loadFrom 0 program State.reset

/-! ## The order of a run's events (R36, R40, R213, R216) -/

/-- Where the block stands between reset and start. It belongs to the run control of D13, not to the six items of R20,
so it is no field of `State` (log entry 5). -/
inductive Phase where
  /-- After reset, before `start`: the load port is open and the engine takes no step. -/
  | loading
  /-- After `start`: the load port is closed and the engine steps by itself. -/
  | started
  deriving DecidableEq, Repr

/-- The block with its run control. -/
structure Block where
  phase : Phase
  core  : State
  deriving DecidableEq, Repr

/-- What the host can do to the block (R36); it has no other move (R40). -/
inductive HostInput where
  | reset
  | load (addr data : Byte)
  | start
  deriving DecidableEq, Repr

/-- The block just after reset. -/
def Block.atReset : Block := { phase := .loading, core := State.reset }

/-- The effect of a host input; `none` where R213 has no such event (a load or a second start after `start`: log entry
5). `reset` is taken in every phase and every run state, so also in the middle of a run: DESIGN CHOICE, log entry 13. R36
gives `reset` no window, R210 makes it the only way out of `Halted` and `Faulted`, and R40, R216 and D13 give the host
no move while the engine runs. -/
def Block.input (b : Block) (i : HostInput) : Option Block :=
  match i, b.phase with
  | .reset, _ => some Block.atReset
  | .load addr data, .loading => some { b with core := loadCell addr data b.core }
  | .load _ _, .started => none
  | .start, .loading => some { b with phase := .started }
  | .start, .started => none

/-- The block's own move: nothing before `start`, then one step of the engine (R36, R216). -/
def Block.cycle (b : Block) : Host.Outcome Block Fault Refusal :=
  match b.phase with
  | .loading => .next b
  | .started =>
    match step b.core with
    | .next t => .next { b with core := t }
    | .fault r => .fault r
    | .refused r => .refused r

end Sys2Proof.Machine
end

