-- ==== Sys2Proof/Safety.lean ====
section
/-!
DEFINITION. What counts as a safe state and as the end of a run, in the terms the statements use.
-/

namespace Sys2Proof.Machine

/-- The fetch of the instruction at `pc` succeeds: exactly when `pc` is at most 253 (R110). Every instruction rule
assumes it (R10). -/
abbrev State.Fetchable (s : State) : Prop := s.pc.toNat ≤ 253

/-- The byte at `pc + k` (for a fetchable state a cell of memory): opcode 0, operand a 1, operand b 2. -/
def State.fetched (s : State) (k : Nat) : Byte := s.byteAt (s.pc.toNat + k)

/-- What the three bytes at `pc` decode to (R113). -/
def State.instrAt (opc : Opc) (s : State) : Except DecodeError Instr :=
  decode opc (s.fetched 0) (s.fetched 1) (s.fetched 2)

/-- The end of a run (R13). -/
abbrev State.Terminal (s : State) : Prop := s.state ≠ .running

/-- A finished run, the only end a claim about a program's result may rest on (R182). -/
abbrev State.Finished (s : State) : Prop := s.state = .halted ∧ s.fault = none

/-- The operand byte that names register `d`. -/
def regByte (d : Fin 8) : Byte := BitVec.ofNat 8 d.val

/-- Every byte of memory reads in `t` as it did in `s`. -/
def SameMemory (s t : State) : Prop := ∀ a, t.byteAt a = s.byteAt a

/-- Every byte of memory but the one at `addr` reads in `t` as it did in `s`. -/
def SameMemoryBut (addr : Nat) (s t : State) : Prop := ∀ a, a ≠ addr → t.byteAt a = s.byteAt a

/-- Every register but those listed holds in `t` what it held in `s`. -/
def SameRegsBut (ds : List (Fin 8)) (s t : State) : Prop := ∀ j, j ∉ ds → t.reg j = s.reg j

/-- The run state and the fault record are in `t` as they were in `s`. -/
def SameStatus (s t : State) : Prop := t.state = s.state ∧ t.fault = s.fault

/-- The value register `d` holds once `sp` has been decremented: the decremented `sp` itself for `R7` (D10). -/
def regAfterDec (s : State) (d : Fin 8) : Byte := if d = spIndex then s.sp - 1#8 else s.reg d

/-- The table of R183 read from top to bottom: the first error that applies to the instruction at `pc`, with its
information, or none. -/
def firstError (opc : Opc) (s : State) : Option (ErrorKind × Nat) :=
  let opcode := s.fetched 0
  let a := s.fetched 1
  let b := s.fetched 2
  if 254 ≤ s.pc.toNat then some (.outOfBounds, 256)
  else if opcode = opcHlt then none
  else if opcode ∉ [opc.ldi, opc.prn, opc.mul, opc.add, opc.push, opc.pop, opc.call, opc.ret] then
    some (.unknownOpcode, opcode.toNat)
  else if opcode ≠ opc.ret ∧ 8 ≤ a.toNat then some (.invalidRegister, a.toNat)
  else if (opcode = opc.mul ∨ opcode = opc.add) ∧ 8 ≤ b.toNat then some (.invalidRegister, b.toNat)
  else if (opcode = opc.push ∨ opcode = opc.call) ∧ s.sp.toNat = 0 then some (.stackOverflow, 0)
  else if opcode = opc.ret ∧ s.sp.toNat = 255 then some (.stackUnderflow, 255)
  else if opcode = opc.pop ∧ a.toNat ≠ 7 ∧ s.sp.toNat = 255 then some (.stackUnderflow, 255)
  else if opcode = opc.pop ∧ a.toNat = 7 ∧ (s.byteAt s.sp.toNat).toNat = 255 then some (.stackUnderflow, 255)
  else none

/-- `s` with the fault entry of R180 made and nothing else changed. -/
def State.withFault (s : State) (kind : ErrorKind) (info : Nat) : State :=
  { s with fault := some { kind := kind, pc := s.pc, info := BitVec.ofNat 9 info }, state := .faulted }

/-- A fault record of R178's table that fits the state it left, which is the state it was raised in but for the run state
and the record (R180): the kinds the block can raise, each with its information and with the condition that raises it,
read off the instruction still standing at `pc`. -/
def FaultRecord.Fits (opc : Opc) (f : FaultRecord) (s : State) : Prop :=
  f.pc = s.pc ∧
  match f.kind with
  | .outOfBounds => f.info.toNat = 256 ∧ 254 ≤ s.pc.toNat
  | .invalidRegister => s.Fetchable ∧ ∃ i r, s.instrAt opc = .ok i ∧
      i.regOperands.find? (fun q => !isRegIndex q) = some r ∧ f.info = zext9 r
  | .unknownOpcode => s.Fetchable ∧ f.info = zext9 (s.fetched 0) ∧ ∀ op : Op, opcodeByte opc op ≠ s.fetched 0
  | .unsupportedOperation => False
  | .invalidProgramEncoding => False
  | .stackOverflow => s.Fetchable ∧ f.info.toNat = 0 ∧ s.sp.toNat = 0 ∧
      ∃ d : Fin 8, s.instrAt opc = .ok (.push (regByte d)) ∨ s.instrAt opc = .ok (.call (regByte d))
  | .stackUnderflow => s.Fetchable ∧ f.info.toNat = 255 ∧
      ((s.instrAt opc = .ok .ret ∧ s.sp.toNat = 255) ∨
       ∃ d : Fin 8, s.instrAt opc = .ok (.pop (regByte d)) ∧
        (if d = spIndex then s.byteAt s.sp.toNat else s.sp).toNat = 255)

/-- The invariant every step keeps, for a given `OPC`: memory in canonical form and inside the 256 cells (R33; the form
is log entry 6); `pc` at most 256 (R25, R27); the fault record present exactly in `Faulted` (R30, R31), and then one of
R178's. -/
structure State.Inv (opc : Opc) (s : State) : Prop where
  mem   : Memory.wf s.mem = true
  pc    : s.pc.toNat ≤ 256
  fault : s.fault.isSome ↔ s.state = .faulted
  fits  : ∀ f, s.fault = some f → f.Fits opc s

end Sys2Proof.Machine
end

