-- ==== Sys2Proof/Certificates/Slice0/Obligations.lean ====
section
/-!
DEFINITION. The statements for the provers. Each docstring names the rule of spec/ it rests on; OBLIGATIONS.json holds
their titles, tiers and citations. Statements about decoding and about the engine are made for ANY `OPC` wherever the
spec allows it (spec/92_eei_decisions.md D4); the default values (log entry 1) enter only where `step` or `defaultOpc`
stands.
-/

open Sys2Proof Sys2Proof.Machine

/-! ## Encoding and decoding -/

/-- One word of every format, written out from spec/30_encoding.md R81 and R88, decodes to the instruction it stands
for. All bytes but HLT's are the presumed defaults of log entry 1. -/
def Obligations.DefaultWordsDecode : Prop :=
  decodeTableWord 8 0b00000001 = some .hlt ∧
  decodeTableWord 24 0b00001000_00000011_10000010 = some (.ldi 3#8 8#8) ∧
  decodeTableWord 16 0b00000110_01000101 = some (.push 6#8) ∧
  decodeTableWord 24 0b00000001_00000010_10100010 = some (.mul 2#8 1#8) ∧
  decodeTableWord 8 0b00010001 = some .ret ∧
  decodeTableWord 8 0b00000000 = none

/-- Decoding an encoded instruction gives it back, with every operand byte (ill-formed ones too), whatever follows it in
memory, for every `OPC` that R89 admits. -/
def Obligations.DecodeOfEncodeIsIdentity : Prop :=
  ∀ (opc : Opc), validOpc opc → ∀ (i : Instr) (rest : List Byte),
    decodeBytes opc (encode opc i ++ rest) = .ok (i, rest)

/-- The other direction: bytes that decode are the encoding of what they decode to, so no two words of one length mean
the same instruction and no operand bit is dropped. -/
def Obligations.DecodedBytesAreTheEncoding : Prop :=
  ∀ (opc : Opc) (bytes rest : List Byte) (i : Instr),
    decodeBytes opc bytes = .ok (i, rest) → bytes = encode opc i ++ rest

/-- R90: an opcode byte is rejected, under its own value, exactly when it is none of the nine; with the default values
0x00 is rejected. -/
def Obligations.DecodeRejectsExactlyBytesOutsideTheMap : Prop :=
  (∀ (opc : Opc) (o a b : Byte),
    decode opc o a b = .error (.unknownOpcode o) ↔ ∀ op : Op, opcodeByte opc op ≠ o) ∧
  (∀ (opc : Opc) (o a b : Byte) (e : DecodeError), decode opc o a b = .error e → e = .unknownOpcode o) ∧
  (∀ a b : Byte, decode defaultOpc 0x00#8 a b = .error (.unknownOpcode 0x00#8))

/-- R84: the operand bytes an instruction does not use have no effect on what is decoded; the bytes it uses are all
read, so that two triples decode alike only if they agree on them. -/
def Obligations.DecodeReadsExactlyTheUsedOperandBytes : Prop :=
  ∀ (opc : Opc) (o a b a' b' : Byte) (op : Op), findOp opc o = some op →
    (decode opc o a b = decode opc o a' b' ↔
      (2 ≤ op.length → a = a') ∧ (3 ≤ op.length → b = b'))

/-! ## The engine's cycle -/

/-- R111, R114: where the three bytes at `pc` decode, a step of a running machine is exactly the meaning of the decoded
instruction; the engine adds nothing, moves no `pc`, and this holds for every instruction, well-formed or not. -/
def Obligations.StepRunsTheDecodedInstruction : Prop :=
  ∀ (s : State) (i : Instr), s.state = .running → s.Fetchable →
    decode defaultOpc (s.fetched 0) (s.fetched 1) (s.fetched 2) = .ok i → step s = exec i s

/-- An instruction of the opcode table placed by `withFetchWord` is what the next step runs (log entry 4). -/
def Obligations.PlacedWordIsRunByNextStep : Prop :=
  ∀ (s : State) (nbits w : Nat) (i : Instr), s.state = .running → s.Fetchable →
    decodeTableWord nbits w = some i →
    step (s.withFetchWord nbits w) = exec i (s.withFetchWord nbits w)

/-- R110: up to `pc = 253` the fetch answers the three cells at `pc`, `pc + 1`, `pc + 2`; from 254 on it raises
OutOfBounds of the first address that does not exist, the sums not reduced (256 for 254, 255 and 256), whatever the
bytes are, and a running machine is then faulted (R180) with nothing else changed. That the address is `pc` itself for
the `pc` above 256 that no run reaches is log entry 10. -/
def Obligations.FetchReadsThreeCellsOrFaultsAtTheTop : Prop :=
  ∀ (opc : Opc) (s : State),
    (s.Fetchable → fetch s = .ok (s.byteAt s.pc.toNat, s.byteAt (s.pc.toNat + 1), s.byteAt (s.pc.toNat + 2))) ∧
    (254 ≤ s.pc.toNat → fetch s = .error ⟨.outOfBounds, BitVec.ofNat 9 (max 256 s.pc.toNat)⟩ ∧
      (s.state = .running → cycle opc s = .next (s.withFault .outOfBounds (max 256 s.pc.toNat))))

/-- R112: the byte 0x01 halts a running machine before the opcode map is consulted, whatever `OPC` is and whatever the
two bytes after it hold, and nothing but the run state changes; where the fetch faults it is never recognised. -/
def Obligations.HltByteHaltsWhateverFollows : Prop :=
  ∀ (opc : Opc) (s : State), s.state = .running → s.fetched 0 = 0x01#8 →
    (s.Fetchable → ∃ t, cycle opc s = .next t ∧ t.state = .halted ∧ t.pc = s.pc ∧ SameRegsBut [] s t ∧
      SameMemory s t ∧ t.out = s.out ∧ t.fault = s.fault) ∧
    (¬ s.Fetchable → ∃ t, cycle opc s = .next t ∧ t.state = .faulted)

/-- R173: a running machine that fetches a byte outside the nine raises UnknownOpcode with that byte, changes nothing
else, and leaves `pc` at it. -/
def Obligations.UnknownOpcodeFaults : Prop :=
  ∀ (opc : Opc) (s : State), s.state = .running → s.Fetchable → (∀ op : Op, opcodeByte opc op ≠ s.fetched 0) →
    cycle opc s = .next (s.withFault .unknownOpcode (s.fetched 0).toNat)

/-! ## The nine instructions: result, frame and errors -/

/-- R115. -/
def Obligations.HltHaltsAndChangesNothingElse : Prop :=
  ∀ s : State, ∃ t, exec .hlt s = .next t ∧ t.state = .halted ∧ t.pc = s.pc ∧ SameRegsBut [] s t ∧ SameMemory s t ∧
    t.out = s.out ∧ t.fault = s.fault

/-- R130. -/
def Obligations.LdiLoadsTheImmediate : Prop :=
  ∀ (s : State) (imm : Byte), s.Fetchable →
    (∀ d : Fin 8, ∃ t, exec (.ldi (regByte d) imm) s = .next t ∧
      t.reg d = imm ∧ SameRegsBut [d] s t ∧ t.pc.toNat = s.pc.toNat + 3 ∧
      SameMemory s t ∧ t.out = s.out ∧ SameStatus s t) ∧
    (∀ r : Byte, 8 ≤ r.toNat → exec (.ldi r imm) s = .next (s.withFault .invalidRegister r.toNat))

/-- R131. -/
def Obligations.PrnEmitsTheRegister : Prop :=
  ∀ s : State, s.Fetchable →
    (∀ d : Fin 8, ∃ t, exec (.prn (regByte d)) s = .next t ∧
      t.out = s.out ++ [s.reg d] ∧ SameRegsBut [] s t ∧ t.pc.toNat = s.pc.toNat + 2 ∧
      SameMemory s t ∧ SameStatus s t) ∧
    (∀ r : Byte, 8 ≤ r.toNat → exec (.prn r) s = .next (s.withFault .invalidRegister r.toNat))

/-- R141: the low byte of the product; `a = b` squares; operand a is checked before operand b. -/
def Obligations.MulWritesTheLowByteOfTheProduct : Prop :=
  ∀ s : State, s.Fetchable →
    (∀ a b : Fin 8, ∃ t, exec (.mul (regByte a) (regByte b)) s = .next t ∧
      (t.reg a).toNat = ((s.reg a).toNat * (s.reg b).toNat) % 256 ∧ SameRegsBut [a] s t ∧
      t.pc.toNat = s.pc.toNat + 3 ∧ SameMemory s t ∧ t.out = s.out ∧ SameStatus s t) ∧
    (∀ ra rb : Byte, 8 ≤ ra.toNat → exec (.mul ra rb) s = .next (s.withFault .invalidRegister ra.toNat)) ∧
    (∀ (a : Fin 8) (rb : Byte), 8 ≤ rb.toNat →
      exec (.mul (regByte a) rb) s = .next (s.withFault .invalidRegister rb.toNat))

/-- R142: the sum modulo 256, the carry discarded; `a = b` doubles; operand a is checked before operand b. -/
def Obligations.AddWritesTheSumModulo256 : Prop :=
  ∀ s : State, s.Fetchable →
    (∀ a b : Fin 8, ∃ t, exec (.add (regByte a) (regByte b)) s = .next t ∧
      (t.reg a).toNat = ((s.reg a).toNat + (s.reg b).toNat) % 256 ∧ SameRegsBut [a] s t ∧
      t.pc.toNat = s.pc.toNat + 3 ∧ SameMemory s t ∧ t.out = s.out ∧ SameStatus s t) ∧
    (∀ ra rb : Byte, 8 ≤ ra.toNat → exec (.add ra rb) s = .next (s.withFault .invalidRegister ra.toNat)) ∧
    (∀ (a : Fin 8) (rb : Byte), 8 ≤ rb.toNat →
      exec (.add (regByte a) rb) s = .next (s.withFault .invalidRegister rb.toNat))

/-- PUSH (spec/43_stack_push_pop.md section 2): the store address is the meaning's own `pushAddr`, and it is `sp - 1`;
`PUSH R7` stores the decremented value (the spec's decision D10); at `sp = 0` it raises StackOverflow (decision D9).
-/
def Obligations.PushStoresBelowTheStackPointer : Prop :=
  ∀ s : State, s.Fetchable →
    (∀ d : Fin 8, s.sp.toNat ≠ 0 → ∃ t, exec (.push (regByte d)) s = .next t ∧
      pushAddr s + 1 = s.sp.toNat ∧ t.sp.toNat = pushAddr s ∧ SameRegsBut [spIndex] s t ∧
      t.byteAt (pushAddr s) = regAfterDec s d ∧ SameMemoryBut (pushAddr s) s t ∧
      t.pc.toNat = s.pc.toNat + 2 ∧ t.out = s.out ∧ SameStatus s t) ∧
    (∀ d : Fin 8, s.sp.toNat = 0 → exec (.push (regByte d)) s = .next (s.withFault .stackOverflow 0)) ∧
    (∀ r : Byte, 8 ≤ r.toNat → exec (.push r) s = .next (s.withFault .invalidRegister r.toNat))

/-- POP (spec/43_stack_push_pop.md section 2): the popped cell keeps its value; `POP R7` ends at the popped byte plus
one (the spec's decision D10); StackUnderflow where the increment would give 256 (decision D9). -/
def Obligations.PopLoadsFromTheStackPointer : Prop :=
  ∀ s : State, s.Fetchable →
    (∀ d : Fin 8, d ≠ spIndex → s.sp.toNat ≠ 255 → ∃ t, exec (.pop (regByte d)) s = .next t ∧
      t.reg d = s.byteAt s.sp.toNat ∧ t.sp.toNat = s.sp.toNat + 1 ∧ SameRegsBut [d, spIndex] s t ∧
      t.pc.toNat = s.pc.toNat + 2 ∧ SameMemory s t ∧ t.out = s.out ∧ SameStatus s t) ∧
    ((s.byteAt s.sp.toNat).toNat ≠ 255 → ∃ t, exec (.pop (regByte spIndex)) s = .next t ∧
      t.sp.toNat = (s.byteAt s.sp.toNat).toNat + 1 ∧ SameRegsBut [spIndex] s t ∧
      t.pc.toNat = s.pc.toNat + 2 ∧ SameMemory s t ∧ t.out = s.out ∧ SameStatus s t) ∧
    (∀ d : Fin 8, d ≠ spIndex → s.sp.toNat = 255 →
      exec (.pop (regByte d)) s = .next (s.withFault .stackUnderflow 255)) ∧
    ((s.byteAt s.sp.toNat).toNat = 255 →
      exec (.pop (regByte spIndex)) s = .next (s.withFault .stackUnderflow 255)) ∧
    (∀ r : Byte, 8 ≤ r.toNat → exec (.pop r) s = .next (s.withFault .invalidRegister r.toNat))

/-- CALL (spec/44_subroutine_call_ret.md): the return address `pc + 2` goes to the meaning's own `pushAddr`, which is
`sp - 1`; the target is read after the decrement (the spec's decision D10). -/
def Obligations.CallPushesTheReturnAddressAndJumps : Prop :=
  ∀ s : State, s.Fetchable →
    (∀ d : Fin 8, s.sp.toNat ≠ 0 → ∃ t, exec (.call (regByte d)) s = .next t ∧
      pushAddr s + 1 = s.sp.toNat ∧ t.sp.toNat = pushAddr s ∧ SameRegsBut [spIndex] s t ∧
      (t.byteAt (pushAddr s)).toNat = s.pc.toNat + 2 ∧ SameMemoryBut (pushAddr s) s t ∧
      t.pc.toNat = (regAfterDec s d).toNat ∧ t.out = s.out ∧ SameStatus s t) ∧
    (∀ d : Fin 8, s.sp.toNat = 0 → exec (.call (regByte d)) s = .next (s.withFault .stackOverflow 0)) ∧
    (∀ r : Byte, 8 ≤ r.toNat → exec (.call r) s = .next (s.withFault .invalidRegister r.toNat))

/-- R161: `pc` is the popped byte with nothing added. -/
def Obligations.RetPopsTheProgramCounter : Prop :=
  ∀ s : State,
    (s.sp.toNat ≠ 255 → ∃ t, exec .ret s = .next t ∧
      t.pc.toNat = (s.byteAt s.sp.toNat).toNat ∧ t.sp.toNat = s.sp.toNat + 1 ∧ SameRegsBut [spIndex] s t ∧
      SameMemory s t ∧ t.out = s.out ∧ SameStatus s t) ∧
    (s.sp.toNat = 255 → exec .ret s = .next (s.withFault .stackUnderflow 255))

/-! ## Rules about all instructions -/

/-- R172: an instruction with a register-index byte above 7 raises InvalidRegister with the FIRST such byte, before any
other error and with nothing written; with all register indices legal no instruction raises it. -/
def Obligations.InvalidRegisterExactlyForBadIndices : Prop :=
  ∀ (i : Instr) (s : State),
    (∀ r : Byte, i.regOperands.find? (fun q => !isRegIndex q) = some r →
      exec i s = .next (s.withFault .invalidRegister r.toNat)) ∧
    (i.wellFormed = true → ∀ (t : State) (f : FaultRecord), exec i s = .next t → t.fault = some f →
      s.fault = none → f.kind ≠ .invalidRegister)

/-- R26: where each instruction leaves `pc` when it completes without a fault; the relative advance is the length it is
encoded in, under any `OPC`; and one that faults leaves `pc` where it was. -/
def Obligations.ProgramCounterAfterEachInstruction : Prop :=
  ∀ (opc : Opc) (i : Instr) (s t : State), s.Fetchable → exec i s = .next t →
    (t.state ≠ .faulted →
      (match i with
      | .hlt => t.pc = s.pc
      | .ldi _ _ => t.pc.toNat = s.pc.toNat + 3
      | .prn _ => t.pc.toNat = s.pc.toNat + 2
      | .mul _ _ => t.pc.toNat = s.pc.toNat + 3
      | .add _ _ => t.pc.toNat = s.pc.toNat + 3
      | .push _ => t.pc.toNat = s.pc.toNat + 2
      | .pop _ => t.pc.toNat = s.pc.toNat + 2
      | .call r => ∃ d : Fin 8, r = regByte d ∧ t.pc = zext9 (regAfterDec s d)
      | .ret => t.pc = zext9 (s.byteAt s.sp.toNat)) ∧
      (i ≠ .hlt → i ≠ .ret → (∀ r, i ≠ .call r) → t.pc.toNat = s.pc.toNat + (encode opc i).length)) ∧
    (t.state = .faulted → s.state ≠ .faulted → t.pc = s.pc)

/-- R22: no instruction changes a register outside its row of the table. -/
def Obligations.RegistersChangedOnlyAsTabled : Prop :=
  ∀ (i : Instr) (s t : State) (j : Fin 8), exec i s = .next t → t.reg j ≠ s.reg j →
    match i with
    | .hlt => False
    | .ldi r _ => r = regByte j
    | .prn _ => False
    | .mul ra _ => ra = regByte j
    | .add ra _ => ra = regByte j
    | .push _ => j = spIndex
    | .pop r => r = regByte j ∨ j = spIndex
    | .call _ => j = spIndex
    | .ret => j = spIndex

/-- R33, R55: the only cycles that change a cell of memory are those of PUSH and CALL in a running machine, and the only
cell they change is `mem[sp - 1]`. -/
def Obligations.OnlyPushAndCallWriteMemory : Prop :=
  ∀ (opc : Opc) (s t : State) (a : Nat), cycle opc s = .next t → t.byteAt a ≠ s.byteAt a →
    s.state = .running ∧ s.Fetchable ∧ (s.fetched 0 = opc.push ∨ s.fetched 0 = opc.call) ∧ a + 1 = s.sp.toNat

/-- R38: a cycle emits one byte, the value of the named register, exactly when it is a PRN of a legal register in a
running machine; every other cycle leaves the channel as it was. -/
def Obligations.OnlyPrnEmits : Prop :=
  ∀ (opc : Opc), validOpc opc → ∀ (s t : State), cycle opc s = .next t →
    (∀ d : Fin 8, s.state = .running → s.Fetchable → s.fetched 0 = opc.prn → s.fetched 1 = regByte d →
      outPort s t = some (s.reg d) ∧ t.out = s.out ++ [s.reg d]) ∧
    (¬ (s.state = .running ∧ s.Fetchable ∧ s.fetched 0 = opc.prn ∧ (s.fetched 1).toNat < 8) →
      outPort s t = none ∧ t.out = s.out)

/-- R38, R29: nothing an instruction does depends on what has been emitted: two runs that differ only in the contents of
the observation channel stay the same but for those contents, for any number of steps. -/
def Obligations.EmittedBytesNeverInfluenceARun : Prop :=
  ∀ (n : Nat) (s t : State) (o : List Byte), Host.Core.run Sys2Proof.core n s = .next t →
    Host.Core.run Sys2Proof.core n { s with out := o } = .next { t with out := o ++ t.out.drop s.out.length }

/-- R143: the exact results of the ALU and its zero and one laws; nothing saturates. -/
def Obligations.AluWrapsExactly : Prop :=
  ∀ u v : Byte,
    (alu .add u v).toNat = (if u.toNat + v.toNat ≤ 255 then u.toNat + v.toNat else u.toNat + v.toNat - 256) ∧
    (∃ high : Nat, high < 256 ∧ u.toNat * v.toNat = 256 * high + (alu .mul u v).toNat) ∧
    alu .add u 0#8 = u ∧ alu .mul 0#8 v = 0#8 ∧ alu .mul u 0#8 = 0#8 ∧ alu .mul u 1#8 = u

/-! ## Errors -/

/-- Fault entry (spec/60_exceptions.md section 2; the spec's decisions D5 and D7): a running machine that becomes
faulted in a step has changed nothing but `state` and `fault`, and the record holds the address of the faulting
instruction. -/
def Obligations.FaultsArePrecise : Prop :=
  ∀ (opc : Opc) (s t : State), s.state = .running → cycle opc s = .next t → t.state = .faulted →
    ∃ f : FaultRecord, f.pc = s.pc ∧ t = { s with state := .faulted, fault := some f }

/-- The whole table of priorities of spec/60_exceptions.md section 2 (its rows 4 to 6 are the spec's decision D8). A
running machine faults exactly with the first error of the table that applies, with its information, and if none
applies the cycle completes without a fault. -/
def Obligations.FirstErrorOfTheTableIsReported : Prop :=
  ∀ (opc : Opc), validOpc opc → ∀ s : State, s.state = .running → s.pc.toNat ≤ 256 →
    (∀ (kind : ErrorKind) (info : Nat), firstError opc s = some (kind, info) →
      cycle opc s = .next (s.withFault kind info)) ∧
    (firstError opc s = none → ∃ t, cycle opc s = .next t ∧ t.state ≠ .faulted ∧ t.fault = s.fault)

/-- R171: the memory primitives raise OutOfBounds from 256 up; of a running machine with `pc` in range, the error raised
is OutOfBounds exactly when `pc` is 254 or more, whatever the instruction there, and its information is always 256; no
access but the fetch ever raises it. The record of an address of 512 or more is cut to nine bits (log entry 10). -/
def Obligations.OutOfBoundsOnlyFromTheFetch : Prop :=
  (∀ (a : Nat) (v : Byte) (s : State), 256 ≤ a →
    memRead a s = .error ⟨.outOfBounds, BitVec.ofNat 9 a⟩ ∧ memWrite a v s = .error ⟨.outOfBounds, BitVec.ofNat 9 a⟩) ∧
  (∀ (opc : Opc) (s t : State), s.state = .running → s.pc.toNat ≤ 256 → cycle opc s = .next t →
    ((∃ f, t.fault = some f ∧ t.state = .faulted ∧ f.kind = .outOfBounds) ↔ 254 ≤ s.pc.toNat) ∧
    (∀ f, t.fault = some f → t.state = .faulted → f.kind = .outOfBounds → f.info.toNat = 256))

/-- The spec's inference that UnsupportedOperation is unreachable (spec/42_alu_mul_add.md section 1): no step raises
UnsupportedOperation, and none raises the loader's InvalidProgramEncoding. -/
def Obligations.UnsupportedOperationIsUnreachable : Prop :=
  ∀ (opc : Opc) (s t : State) (f : FaultRecord), s.state = .running → cycle opc s = .next t → t.state = .faulted →
    t.fault = some f → f.kind ≠ .unsupportedOperation ∧ f.kind ≠ .invalidProgramEncoding

/-- Of a fault nothing returns and none nests (spec/60_exceptions.md section 2): once an error has been raised the
record never changes, however many steps are taken. -/
def Obligations.FaultRecordIsWrittenOnce : Prop :=
  ∀ (n : Nat) (s t : State) (f : FaultRecord), s.Inv defaultOpc → s.fault = some f →
    Host.Core.run Sys2Proof.core n s = .next t → t.fault = some f ∧ t.state = .faulted

/-! ## Run state, reset, launch -/

/-- The transitions of the run state, all of them (spec/10_state.md section 4; the third state is the spec's decision
D5). -/
def Obligations.RunStateTransitions : Prop :=
  ∀ (opc : Opc), validOpc opc → ∀ (s t : State), cycle opc s = .next t →
    (s.state = .halted → t.state = .halted) ∧
    (s.state = .faulted → t.state = .faulted) ∧
    (s.state = .running → (t.state = .halted ↔ s.Fetchable ∧ s.fetched 0 = opcHlt)) ∧
    (s.state = .running → s.pc.toNat ≤ 256 → (t.state = .faulted ↔ (firstError opc s).isSome)) ∧
    (s.state = .running → s.pc.toNat ≤ 256 →
      (t.state = .running ↔ firstError opc s = none ∧ s.fetched 0 ≠ opcHlt))

/-- `Halted` and `Faulted` are absorbing (the spec's decision D16; the self-step is log entry 3): no number of steps
changes anything. -/
def Obligations.TerminalStatesNeverChange : Prop :=
  ∀ (n : Nat) (s : State), s.state = .halted ∨ s.state = .faulted → Host.Core.run Sys2Proof.core n s = .next s

/-- The step that leaves everything as it is stands for "there is no step" (R111, R116) and for nothing else: a step
of a RUNNING machine always changes the state. The self-step is the model's choice (log entry 3). -/
def Obligations.OnlyTerminalStatesStepToThemselves : Prop :=
  ∀ s : State, step s = .next s ↔ s.state ≠ .running

/-- R180, R116: every run of every length answers a state: no error, byte or operand makes the model stop. That errors
are next states is log entry 2, that terminal states step to themselves log entry 3. -/
def Obligations.EveryRunAnswersAState : Prop :=
  ∀ (n : Nat) (s : State), ∃ t : State, Host.Core.run Sys2Proof.core n s = .next t

/-- The value of every piece of state after reset (spec/10_state.md section 8; the empty `fault` and `out` are the
spec's decision D15). -/
def Obligations.ResetValues : Prop :=
  (∀ a : Nat, State.reset.byteAt a = 0x00#8) ∧
  (∀ d : Fin 8, State.reset.reg d = if d = spIndex then 0xF4#8 else 0x00#8) ∧
  State.reset.pc = 0#9 ∧ State.reset.state = .running ∧ State.reset.fault = none ∧ State.reset.out = []

/-- The spec's launch state (spec/70_reset_and_hazards.md section 2): the launch state is a function of the program's
bytes, for every program of at most 256 bytes; a longer one is not loadable (decision D14). -/
def Obligations.LaunchState : Prop :=
  (∀ program : List Byte, program.length ≤ 256 → ∃ s, launch program = .ok s ∧
    (∀ a : Nat, s.byteAt a = program.getD a 0x00#8) ∧
    (∀ d : Fin 8, s.reg d = if d = spIndex then 0xF4#8 else 0x00#8) ∧
    s.pc = 0#9 ∧ s.state = .running ∧ s.fault = none ∧ s.out = []) ∧
  (∀ program : List Byte, 256 < program.length → launch program = .error ⟨.outOfBounds, 256#9⟩)

/-- The order of a run's events (R36, R37, R210, R213, R216). A program fed to the load port byte by byte after reset,
then `start`, puts the block in its launch state; `reset` is taken from every block and leaves what reset leaves (that
it is taken in the middle of a run too is the model's choice, log entry 13); a started block takes no other input;
before `start` the block stays as it is, and after it moves by the engine's step. That the phase is kept beside `State`
is log entry 5. -/
def Obligations.LoadPortThenStartReachesLaunch : Prop :=
  (∀ program : List Byte, program.length ≤ 256 → ∃ s, launch program = .ok s ∧
    ((program.zipIdx.map (fun c => HostInput.load (BitVec.ofNat 8 c.2) c.1)) ++ [HostInput.start]).foldlM
      Block.input Block.atReset = some { phase := .started, core := s }) ∧
  (∀ b : Block, b.input .reset = some { phase := .loading, core := State.reset }) ∧
  (∀ (b b' : Block) (i : HostInput), b.phase = .started → b.input i = some b' → i = .reset) ∧
  (∀ b : Block, b.phase = .loading → b.cycle = .next b) ∧
  (∀ b : Block, b.phase = .started → ∃ t, step b.core = .next t ∧ b.cycle = .next { phase := .started, core := t })

/-- R30, R31, R36, R178: on every state the invariant admits, the port shows the run state under its code of R30, the
cause under its code of R178 (0 exactly while not faulted), and, while faulted, the `pc` of the state and the recorded
information; the codes 4 and 5 never show. The codes are the spec's decisions D6 and D11. -/
def Obligations.StatusPortAgreesWithTheState : Prop :=
  ∀ (opc : Opc) (s : State), s.Inv opc →
    (s.state = .running → (statusPort s).state = 0#2) ∧
    (s.state = .halted → (statusPort s).state = 1#2) ∧
    (s.state = .faulted → (statusPort s).state = 2#2) ∧
    ((statusPort s).faultCode = 0#3 ↔ s.state ≠ .faulted) ∧
    (s.state = .faulted → ∃ f, s.fault = some f ∧
      (statusPort s).faultPc = some s.pc ∧ (statusPort s).faultInfo = some f.info ∧
      ((f.kind = .outOfBounds ∧ (statusPort s).faultCode = 1#3) ∨
       (f.kind = .invalidRegister ∧ (statusPort s).faultCode = 2#3) ∨
       (f.kind = .unknownOpcode ∧ (statusPort s).faultCode = 3#3) ∨
       (f.kind = .stackOverflow ∧ (statusPort s).faultCode = 6#3) ∨
       (f.kind = .stackUnderflow ∧ (statusPort s).faultCode = 7#3)))

/-! ## Invariants -/

/-- The invariant holds at reset, for every `OPC`. Its clause that memory is canonical is about the model's own
representation (log entry 6). -/
def Obligations.ResetMeetsTheInvariant : Prop := ∀ opc : Opc, State.reset.Inv opc

/-- Every step keeps the invariant, for every `OPC`: memory stays canonical and inside the 256 cells (R33), `pc` stays
at most 256 (R27), and the fault record is there exactly in `Faulted`, one of R178's kinds with its information and the
condition that raises it. The canonical form is the model's own (log entry 6). -/
def Obligations.StepKeepsTheInvariant : Prop :=
  ∀ (opc : Opc) (s t : State), s.Inv opc → cycle opc s = .next t → t.Inv opc

/-- Every run from every launch state, of any length, answers a state that meets the invariant; if it has ended it is
finished, or faulted with a fitting record. The opcode bytes are log entry 1, errors as next states log entry 2, the
self-step of a terminal state log entry 3, the canonical form of memory log entry 6. -/
def Obligations.EveryRunFromLaunchIsSafe : Prop :=
  ∀ (program : List Byte) (s : State) (n : Nat), launch program = .ok s →
    ∃ t : State, Host.Core.run Sys2Proof.core n s = .next t ∧ t.Inv defaultOpc ∧
      (t.Terminal → t.Finished ∨ (t.state = .faulted ∧ ∃ f, t.fault = some f ∧ f.Fits defaultOpc t))

/-! ## Memory -/

/-- R51: the contract of the memory: inside `[0, 256)` a write then a read gives the value written and every other
address reads as before; outside both fail with OutOfBounds of the address presented, which is not reduced. -/
def Obligations.MemoryContract : Prop :=
  (∀ (a : Nat) (v : Byte) (s : State), a < 256 → ∃ t, memWrite a v s = .ok t ∧ memRead a t = .ok v ∧
    (∀ b : Nat, b ≠ a → memRead b t = memRead b s) ∧ t = { s with mem := t.mem }) ∧
  (∀ (a : Nat) (v : Byte) (s : State), 256 ≤ a →
    memRead a s = .error ⟨.outOfBounds, BitVec.ofNat 9 a⟩ ∧ memWrite a v s = .error ⟨.outOfBounds, BitVec.ofNat 9 a⟩)

/-- Memories in canonical form that read alike at every address are equal as data. -/
def Obligations.CanonicalMemoriesReadingAlikeAreEqual : Prop :=
  ∀ m m' : Memory, Memory.wf m = true → Memory.wf m' = true → (∀ a, Memory.read m a = Memory.read m' a) → m = m'

/-- R62, R225: the byte a PUSH or a CALL stores is what the very next fetch reads, at every one of its three
addresses. -/
def Obligations.StoresAreSeenByTheNextFetch : Prop :=
  ∀ (s : State) (d : Fin 8), s.state = .running → s.Fetchable → s.fetched 1 = regByte d → s.sp.toNat ≠ 0 →
    (s.fetched 0 = defaultOpc.push → s.pc.toNat ≤ 251 → ∃ t, step s = .next t ∧
      ∃ f0 f1 f2 : Byte, fetch t = .ok (f0, f1, f2) ∧
        f0 = (if s.pc.toNat + 2 = pushAddr s then regAfterDec s d else s.byteAt (s.pc.toNat + 2)) ∧
        f1 = (if s.pc.toNat + 3 = pushAddr s then regAfterDec s d else s.byteAt (s.pc.toNat + 3)) ∧
        f2 = (if s.pc.toNat + 4 = pushAddr s then regAfterDec s d else s.byteAt (s.pc.toNat + 4))) ∧
    (s.fetched 0 = defaultOpc.call → (regAfterDec s d).toNat ≤ 253 → ∃ t, step s = .next t ∧
      ∃ f0 f1 f2 : Byte, fetch t = .ok (f0, f1, f2) ∧
        f0 = (if (regAfterDec s d).toNat = pushAddr s then BitVec.ofNat 8 (s.pc.toNat + 2)
              else s.byteAt (regAfterDec s d).toNat) ∧
        f1 = (if (regAfterDec s d).toNat + 1 = pushAddr s then BitVec.ofNat 8 (s.pc.toNat + 2)
              else s.byteAt ((regAfterDec s d).toNat + 1)) ∧
        f2 = (if (regAfterDec s d).toNat + 2 = pushAddr s then BitVec.ofNat 8 (s.pc.toNat + 2)
              else s.byteAt ((regAfterDec s d).toNat + 2)))

/-! ## The stack and subroutines -/

/-- The spec's round trip (spec/43_stack_push_pop.md section 2, its inference): PUSH then POP of the same register,
run as two steps, leaves every register as it was, `R7` included, and advances `pc` by 4, provided the pushed byte
does not land on the POP's own two bytes. -/
def Obligations.PushThenPopRoundTrip : Prop :=
  ∀ (s : State) (d : Fin 8), s.state = .running → s.pc.toNat ≤ 251 → s.sp.toNat ≠ 0 →
    s.fetched 0 = defaultOpc.push → s.fetched 1 = regByte d →
    s.fetched 2 = defaultOpc.pop → s.fetched 3 = regByte d →
    pushAddr s ≠ s.pc.toNat + 2 → pushAddr s ≠ s.pc.toNat + 3 →
    ∃ u : State, Host.Core.run Sys2Proof.core 2 s = .next u ∧
      SameRegsBut [] s u ∧ u.pc.toNat = s.pc.toNat + 4 ∧
      u.byteAt (pushAddr s) = regAfterDec s d ∧ SameMemoryBut (pushAddr s) s u ∧ u.out = s.out ∧ SameStatus s u

/-- The spec's call-return law (spec/44_subroutine_call_ret.md, its inference): after a CALL the top of the stack
holds the address of the next instruction, and a RET in ANY later state with the same `sp` and that byte still in
place resumes there with the stack pointer as it was before the CALL. -/
def Obligations.CallThenRetResumes : Prop :=
  ∀ (s : State) (d : Fin 8), s.Fetchable → s.sp.toNat ≠ 0 →
    ∃ t, exec (.call (regByte d)) s = .next t ∧ t.pc.toNat = (regAfterDec s d).toNat ∧
      t.sp.toNat + 1 = s.sp.toNat ∧ (t.byteAt t.sp.toNat).toNat = s.pc.toNat + 2 ∧
      ∀ u : State, u.sp = t.sp → u.byteAt u.sp.toNat = t.byteAt t.sp.toNat →
        ∃ v, exec .ret u = .next v ∧ v.pc.toNat = s.pc.toNat + 2 ∧ v.sp = s.sp
end

