-- ==== Sys2Proof/Laws/Decode.lean ====
section
/-!
SUPPORT. The opcode map: what `findOp` answers and when (spec/30_encoding.md R88 to R90).
-/

namespace Sys2Proof

/-- What the map finds for a byte is an instruction of that byte. -/
theorem opcodeByte_of_findOp {opc : Opc} {b : Byte} {op : Op} (h : findOp opc b = some op) : opcodeByte opc op = b := by
  unfold findOp at h
  split at h
  · cases h; exact Eq.symm ‹_›
  · simp only [opcodeMap, List.lookup] at h
    repeat' split at h
    all_goals first
      | (cases h; simp_all [opcodeByte])
      | cases h

/-- A byte that no instruction has is not found. -/
theorem findOp_eq_none {opc : Opc} {b : Byte} : findOp opc b = none ↔ ∀ op, opcodeByte opc op ≠ b := by
  constructor
  · intro h op e
    subst e
    unfold findOp at h
    split at h
    · cases h
    · cases op <;> simp_all [opcodeByte, opcodeMap]
  · intro h
    cases hf : findOp opc b with
    | none => rfl
    | some op => exact absurd (opcodeByte_of_findOp hf) (h op)

/-- Under a valid `OPC` (R89) every mnemonic is found by its byte. -/
theorem findOp_opcodeByte {opc : Opc} (h : validOpc opc) (op : Op) : findOp opc (opcodeByte opc op) = some op := by
  have inj : ∀ op', opcodeByte opc op' = opcodeByte opc op → op' = op := by
    simp only [validOpc, List.nodup_cons, List.mem_cons, List.not_mem_nil, not_or] at h
    obtain ⟨h0, h1, h2, h3, h4, h5, h6, h7, -⟩ := h
    intro op'
    cases op <;> cases op' <;> simp_all [opcodeByte, eq_comm]
  cases hf : findOp opc (opcodeByte opc op) with
  | none => exact absurd rfl (findOp_eq_none.mp hf op)
  | some op' => rw [inj op' (opcodeByte_of_findOp hf)]

/-- The defaults of R88 meet what R89 asks. -/
theorem validOpc_default : validOpc defaultOpc := by decide

theorem withOperands_op (op : Op) (a b : Byte) : (op.withOperands a b).op = op := by cases op <;> rfl

end Sys2Proof
end

