-- ==== Sys2Proof/Laws/State.lean ====
section
/-!
SUPPORT. One lemma per field per update of the state, each true by `rfl`, so that no later proof unfolds a record
update; and what a register or a byte of memory reads as after each update.
-/

namespace Sys2Proof.Machine

variable (s : State)

/-! ## `setReg` -/

@[simp] theorem setReg_mem (i : Fin 8) (v : Byte) : (s.setReg i v).mem = s.mem := rfl
@[simp] theorem setReg_x (i : Fin 8) (v : Byte) : (s.setReg i v).x = s.x.set i v := rfl
@[simp] theorem setReg_pc (i : Fin 8) (v : Byte) : (s.setReg i v).pc = s.pc := rfl
@[simp] theorem setReg_state (i : Fin 8) (v : Byte) : (s.setReg i v).state = s.state := rfl
@[simp] theorem setReg_fault (i : Fin 8) (v : Byte) : (s.setReg i v).fault = s.fault := rfl
@[simp] theorem setReg_out (i : Fin 8) (v : Byte) : (s.setReg i v).out = s.out := rfl

/-! ## `setSp` -/

@[simp] theorem setSp_mem (v : Byte) : (s.setSp v).mem = s.mem := rfl
@[simp] theorem setSp_x (v : Byte) : (s.setSp v).x = s.x.set spIndex v := rfl
@[simp] theorem setSp_pc (v : Byte) : (s.setSp v).pc = s.pc := rfl
@[simp] theorem setSp_state (v : Byte) : (s.setSp v).state = s.state := rfl
@[simp] theorem setSp_fault (v : Byte) : (s.setSp v).fault = s.fault := rfl
@[simp] theorem setSp_out (v : Byte) : (s.setSp v).out = s.out := rfl

/-! ## `advance` -/

@[simp] theorem advance_mem (n : Nat) : (s.advance n).mem = s.mem := rfl
@[simp] theorem advance_x (n : Nat) : (s.advance n).x = s.x := rfl
@[simp] theorem advance_pc (n : Nat) : (s.advance n).pc = s.pc + BitVec.ofNat 9 n := rfl
@[simp] theorem advance_state (n : Nat) : (s.advance n).state = s.state := rfl
@[simp] theorem advance_fault (n : Nat) : (s.advance n).fault = s.fault := rfl
@[simp] theorem advance_out (n : Nat) : (s.advance n).out = s.out := rfl

/-! ## `jump` -/

@[simp] theorem jump_mem (v : Byte) : (s.jump v).mem = s.mem := rfl
@[simp] theorem jump_x (v : Byte) : (s.jump v).x = s.x := rfl
@[simp] theorem jump_pc (v : Byte) : (s.jump v).pc = zext9 v := rfl
@[simp] theorem jump_state (v : Byte) : (s.jump v).state = s.state := rfl
@[simp] theorem jump_fault (v : Byte) : (s.jump v).fault = s.fault := rfl
@[simp] theorem jump_out (v : Byte) : (s.jump v).out = s.out := rfl

/-! ## `emit` -/

@[simp] theorem emit_mem (v : Byte) : (s.emit v).mem = s.mem := rfl
@[simp] theorem emit_x (v : Byte) : (s.emit v).x = s.x := rfl
@[simp] theorem emit_pc (v : Byte) : (s.emit v).pc = s.pc := rfl
@[simp] theorem emit_state (v : Byte) : (s.emit v).state = s.state := rfl
@[simp] theorem emit_fault (v : Byte) : (s.emit v).fault = s.fault := rfl
@[simp] theorem emit_out (v : Byte) : (s.emit v).out = s.out ++ [v] := rfl

/-! ## `raise` -/

@[simp] theorem raise_mem (e : Raised) : (raise e s).mem = s.mem := rfl
@[simp] theorem raise_x (e : Raised) : (raise e s).x = s.x := rfl
@[simp] theorem raise_pc (e : Raised) : (raise e s).pc = s.pc := rfl
@[simp] theorem raise_state (e : Raised) : (raise e s).state = .faulted := rfl
@[simp] theorem raise_fault (e : Raised) : (raise e s).fault = some { kind := e.kind, pc := s.pc, info := e.info } := rfl
@[simp] theorem raise_out (e : Raised) : (raise e s).out = s.out := rfl

/-! ## `withFault` -/

@[simp] theorem withFault_mem (k : ErrorKind) (n : Nat) : (s.withFault k n).mem = s.mem := rfl
@[simp] theorem withFault_x (k : ErrorKind) (n : Nat) : (s.withFault k n).x = s.x := rfl
@[simp] theorem withFault_pc (k : ErrorKind) (n : Nat) : (s.withFault k n).pc = s.pc := rfl
@[simp] theorem withFault_state (k : ErrorKind) (n : Nat) : (s.withFault k n).state = .faulted := rfl
@[simp] theorem withFault_fault (k : ErrorKind) (n : Nat) : (s.withFault k n).fault = some { kind := k, pc := s.pc, info := BitVec.ofNat 9 n } := rfl
@[simp] theorem withFault_out (k : ErrorKind) (n : Nat) : (s.withFault k n).out = s.out := rfl

/-! ## Reading a register after an update -/

@[simp] theorem reg_setReg_self (i : Fin 8) (v : Byte) : (s.setReg i v).reg i = v := by
  simp [State.reg]

theorem reg_setReg_ne {i j : Fin 8} (v : Byte) (h : j ≠ i) : (s.setReg i v).reg j = s.reg j := by
  have h' : i.val ≠ j.val := fun e => h (Fin.ext e.symm)
  simp [State.reg, Vector.getElem_set_ne, h']

theorem reg_setReg (i j : Fin 8) (v : Byte) : (s.setReg i v).reg j = if j = i then v else s.reg j := by
  split
  · subst j; exact reg_setReg_self s i v
  · exact reg_setReg_ne s v ‹_›

@[simp] theorem sp_setSp (v : Byte) : (s.setSp v).sp = v := reg_setReg_self s spIndex v

theorem reg_setSp (j : Fin 8) (v : Byte) : (s.setSp v).reg j = if j = spIndex then v else s.reg j :=
  reg_setReg s spIndex j v

/-- Writing the stack pointer writes its register twice only if the register is `x[7]` (R23). -/
theorem sp_setReg (i : Fin 8) (v : Byte) : (s.setReg i v).sp = if spIndex = i then v else s.sp :=
  reg_setReg s i spIndex v

theorem reg_spIndex : s.reg spIndex = s.sp := rfl

/-- Updates that write no register leave every register as it was. -/
theorem reg_of_x_eq {s t : State} (h : t.x = s.x) (j : Fin 8) : t.reg j = s.reg j := by
  simp [State.reg, h]

@[simp] theorem reg_advance (n : Nat) (j : Fin 8) : (s.advance n).reg j = s.reg j := rfl
@[simp] theorem reg_jump (v : Byte) (j : Fin 8) : (s.jump v).reg j = s.reg j := rfl
@[simp] theorem reg_emit (v : Byte) (j : Fin 8) : (s.emit v).reg j = s.reg j := rfl
@[simp] theorem reg_raise (e : Raised) (j : Fin 8) : (raise e s).reg j = s.reg j := rfl
@[simp] theorem reg_withFault (k : ErrorKind) (n : Nat) (j : Fin 8) : (s.withFault k n).reg j = s.reg j := rfl
@[simp] theorem sp_advance (n : Nat) : (s.advance n).sp = s.sp := rfl
@[simp] theorem sp_jump (v : Byte) : (s.jump v).sp = s.sp := rfl

/-! ## Reading a byte of memory after an update -/

@[simp] theorem byteAt_setReg (i : Fin 8) (v : Byte) (a : Nat) : (s.setReg i v).byteAt a = s.byteAt a := rfl
@[simp] theorem byteAt_setSp (v : Byte) (a : Nat) : (s.setSp v).byteAt a = s.byteAt a := rfl
@[simp] theorem byteAt_advance (n a : Nat) : (s.advance n).byteAt a = s.byteAt a := rfl
@[simp] theorem byteAt_jump (v : Byte) (a : Nat) : (s.jump v).byteAt a = s.byteAt a := rfl
@[simp] theorem byteAt_emit (v : Byte) (a : Nat) : (s.emit v).byteAt a = s.byteAt a := rfl
@[simp] theorem byteAt_raise (e : Raised) (a : Nat) : (raise e s).byteAt a = s.byteAt a := rfl
@[simp] theorem byteAt_withFault (k : ErrorKind) (n a : Nat) : (s.withFault k n).byteAt a = s.byteAt a := rfl

/-! ## The program counter as a number -/

/-- Where an instruction can run, the relative advance of R26 is exact in nine bits (R27). -/
theorem advance_pc_toNat {s : State} {n : Nat} (h : s.Fetchable) (hn : n ≤ 3) :
    (s.advance n).pc.toNat = s.pc.toNat + n := by
  have := s.pc.isLt
  simp only [advance_pc, BitVec.toNat_add, BitVec.toNat_ofNat]
  unfold State.Fetchable at h
  omega

@[simp] theorem zext9_toNat (v : Byte) : (zext9 v).toNat = v.toNat := by
  simp only [zext9, BitVec.toNat_setWidth]; have := v.isLt; omega

/-- The fault entry of R180, in the two spellings the model and the statements use. -/
theorem raise_eq_withFault (k : ErrorKind) (n : Nat) : raise ⟨k, BitVec.ofNat 9 n⟩ s = s.withFault k n := rfl

theorem zext9_eq_ofNat (v : Byte) : zext9 v = BitVec.ofNat 9 v.toNat := by
  apply BitVec.eq_of_toNat_eq; rw [zext9_toNat]; have := v.isLt; simp only [BitVec.toNat_ofNat]; omega

end Sys2Proof.Machine
end

