-- ==== Sys2Proof/Laws/Memory.lean ====
section
/-!
SUPPORT. The memory as a list in canonical form: what a read gives after a write, and that every operation keeps the
canonical form (spec/20_memory.md R51, R54).
-/

namespace Sys2Proof.Machine

theorem read_cons (c : Host.Cell) (m : Memory) (a : Nat) :
    Memory.read (c :: m) a = if c.1 = a then c.2 else Memory.read m a := rfl

/-- A canonical list from `lo` up lists no address below `lo`. -/
theorem read_of_lt {m : Memory} {lo a : Nat} (h : Memory.wfFrom lo m = true) (ha : a < lo) :
    Memory.read m a = unlistedByte := by
  induction m generalizing lo with
  | nil => rfl
  | cons c rest ih =>
    simp only [Memory.wfFrom, Bool.and_eq_true, decide_eq_true_eq] at h
    rw [read_cons, if_neg (by omega)]
    exact ih h.2 (by omega)

/-- A canonical memory reads as the reset value outside the 256 cells. -/
theorem read_of_ge {m : Memory} {lo a : Nat} (h : Memory.wfFrom lo m = true) (ha : 256 ≤ a) :
    Memory.read m a = unlistedByte := by
  induction m generalizing lo with
  | nil => rfl
  | cons c rest ih =>
    simp only [Memory.wfFrom, Bool.and_eq_true, decide_eq_true_eq] at h
    rw [read_cons, if_neg (by omega)]
    exact ih h.2

theorem wfFrom_mono {m : Memory} {lo lo' : Nat} (h : Memory.wfFrom lo m = true) (hl : lo' ≤ lo) :
    Memory.wfFrom lo' m = true := by
  cases m with
  | nil => rfl
  | cons c rest =>
    simp only [Memory.wfFrom, Bool.and_eq_true, decide_eq_true_eq] at h ⊢
    exact ⟨⟨⟨by omega, h.1.1.2⟩, h.1.2⟩, h.2⟩

/-! ## The two parts of a write -/

theorem read_erase (m : Memory) (a b : Nat) :
    Memory.read (Memory.erase m a) b = if b = a then unlistedByte else Memory.read m b := by
  induction m with
  | nil => simp [Memory.erase, Memory.read]
  | cons c rest ih =>
    unfold Memory.erase at ih ⊢
    by_cases hc : c.1 = a
    · simp only [List.filter_cons, hc, bne_self_eq_false, Bool.false_eq_true, if_false, ih, read_cons]
      by_cases hb : b = a
      · simp [hb]
      · simp [hb, Ne.symm hb]
    · simp only [List.filter_cons, bne_iff_ne, ne_eq, hc, not_false_eq_true, if_true, read_cons, ih]
      by_cases hb : c.1 = b
      · subst hb; simp [hc]
      · simp [hb]

theorem read_insert {m : Memory} {a : Nat} (h : Memory.read m a = unlistedByte ∧ ∀ c ∈ m, c.1 ≠ a) (b : Nat) (v : Byte) :
    Memory.read (Memory.insert m a v) b = if b = a then v else Memory.read m b := by
  induction m with
  | nil => simp [Memory.insert, Memory.read, eq_comm]
  | cons c rest ih =>
    have hc : c.1 ≠ a := h.2 c (by simp)
    have hr : Memory.read rest a = unlistedByte ∧ ∀ d ∈ rest, d.1 ≠ a :=
      ⟨by have := h.1; rwa [read_cons, if_neg hc] at this, fun d hd => h.2 d (by simp [hd])⟩
    unfold Memory.insert
    split
    · simp only [read_cons, eq_comm]
    · rw [read_cons, read_cons, ih hr]
      by_cases hb : c.1 = b
      · subst hb; simp [hc]
      · simp [hb]

theorem ne_of_mem_erase {m : Memory} {a : Nat} {c : Host.Cell} (h : c ∈ Memory.erase m a) : c.1 ≠ a := by
  simp only [Memory.erase, List.mem_filter, bne_iff_ne] at h
  exact h.2

theorem wfFrom_erase {m : Memory} {lo : Nat} (a : Nat) (h : Memory.wfFrom lo m = true) :
    Memory.wfFrom lo (Memory.erase m a) = true := by
  induction m generalizing lo with
  | nil => rfl
  | cons c rest ih =>
    simp only [Memory.wfFrom, Bool.and_eq_true, decide_eq_true_eq] at h
    have hr := ih h.2
    unfold Memory.erase at hr ⊢
    by_cases hc : c.1 = a
    · simp only [List.filter_cons, hc, bne_self_eq_false, Bool.false_eq_true, if_false]
      exact wfFrom_mono hr (by omega)
    · simp only [List.filter_cons, bne_iff_ne, ne_eq, hc, not_false_eq_true, if_true, Memory.wfFrom,
        Bool.and_eq_true, decide_eq_true_eq]
      exact ⟨h.1, hr⟩

theorem wfFrom_insert {m : Memory} {lo a : Nat} {v : Byte} (h : Memory.wfFrom lo m = true) (hlo : lo ≤ a)
    (ha : a < 256) (hv : v ≠ unlistedByte) (hn : ∀ c ∈ m, c.1 ≠ a) :
    Memory.wfFrom lo (Memory.insert m a v) = true := by
  induction m generalizing lo with
  | nil => simp [Memory.insert, Memory.wfFrom, hlo, ha, hv]
  | cons c rest ih =>
    simp only [Memory.wfFrom, Bool.and_eq_true, decide_eq_true_eq] at h
    have hc : c.1 ≠ a := hn c (by simp)
    unfold Memory.insert
    split
    · simp only [Memory.wfFrom, Bool.and_eq_true, decide_eq_true_eq]
      exact ⟨⟨⟨hlo, ha⟩, hv⟩, ⟨⟨by omega, h.1.1.2⟩, h.1.2⟩, h.2⟩
    · simp only [Memory.wfFrom, Bool.and_eq_true, decide_eq_true_eq]
      exact ⟨h.1, ih h.2 (by omega) (fun d hd => hn d (by simp [hd]))⟩

/-! ## Writing -/

/-- What a read gives after a write, for every list: the value written at its address, and nothing else moved (R54). -/
theorem read_write (m : Memory) (a b : Nat) (v : Byte) :
    Memory.read (Memory.write m a v) b = if b = a then v else Memory.read m b := by
  unfold Memory.write
  split
  · subst v; exact read_erase m a b
  · rw [read_insert ⟨by rw [read_erase]; simp, fun _ => ne_of_mem_erase⟩, read_erase]
    by_cases hb : b = a <;> simp [hb]

/-- A write inside the 256 cells keeps the canonical form. -/
theorem wf_write {m : Memory} {a : Nat} (v : Byte) (h : Memory.wf m = true) (ha : a < 256) :
    Memory.wf (Memory.write m a v) = true := by
  unfold Memory.write
  split
  · exact wfFrom_erase a h
  · exact wfFrom_insert (wfFrom_erase a h) (Nat.zero_le a) ha ‹_› (fun _ => ne_of_mem_erase)

/-- The state's memory after a write, byte by byte. -/
@[simp] theorem byteAt_write (s : State) (a b : Nat) (v : Byte) :
    State.byteAt { s with mem := Memory.write s.mem a v } b = if b = a then v else s.byteAt b :=
  read_write s.mem a b v

/-! ## Every memory operation keeps the canonical form -/

theorem memWrite_ok {a : Nat} (v : Byte) (s : State) (h : a < 256) :
    memWrite a v s = .ok { s with mem := Memory.write s.mem a v } := if_pos h

theorem memRead_ok {a : Nat} (s : State) (h : a < 256) : memRead a s = .ok (s.byteAt a) := if_pos h

/-- Everything a checked write can do when it answers a state. -/
theorem memWrite_cases {a : Nat} {v : Byte} {s t : State} (h : memWrite a v s = .ok t) :
    a < 256 ∧ t = { s with mem := Memory.write s.mem a v } := by
  unfold memWrite at h
  split at h
  · exact ⟨‹_›, (Except.ok.inj h).symm⟩
  · cases h

theorem wf_memWrite {a : Nat} {v : Byte} {s t : State} (hs : Memory.wf s.mem = true) (h : memWrite a v s = .ok t) :
    Memory.wf t.mem = true := by
  obtain ⟨ha, rfl⟩ := memWrite_cases h
  exact wf_write v hs ha

theorem wf_placeByte {s : State} (hs : Memory.wf s.mem = true) (a : Nat) (v : Byte) :
    Memory.wf (s.placeByte a v).mem = true := by
  unfold State.placeByte
  split
  · exact wf_write v hs ‹_›
  · exact hs

theorem wf_withFetchWord {s : State} (hs : Memory.wf s.mem = true) (nbits w : Nat) :
    Memory.wf (s.withFetchWord nbits w).mem = true :=
  wf_placeByte (wf_placeByte (wf_placeByte hs _ _) _ _) _ _

theorem wf_loadCell {s : State} (hs : Memory.wf s.mem = true) (addr data : Byte) :
    Memory.wf (loadCell addr data s).mem = true := wf_write data hs addr.isLt

theorem wf_loadFrom {i : Nat} {bytes : List Byte} {s t : State} (hs : Memory.wf s.mem = true)
    (h : loadFrom i bytes s = .ok t) : Memory.wf t.mem = true := by
  induction bytes generalizing i s with
  | nil => cases h; exact hs
  | cons b rest ih =>
    unfold loadFrom at h
    split at h
    · cases h
    · exact ih (wf_memWrite hs ‹_›) h

theorem wf_reset : Memory.wf State.reset.mem = true := rfl

end Sys2Proof.Machine
end

