-- ==== Sys2Proof/Laws/Ops.lean ====
section
/-!
SUPPORT. One lemma per shared operation that says everything it can do: the register check, the stack steps, a push, a
pop, the ALU, the end of a cycle, and the fetch.
-/

namespace Sys2Proof.Machine

/-! ## Attempts and the end of a cycle -/

@[simp] theorem ok_bind {α β : Type} (a : α) (f : α → Attempt β) : (Except.ok a >>= f : Attempt β) = f a := rfl
@[simp] theorem error_bind {α β : Type} (e : Raised) (f : α → Attempt β) :
    ((Except.error e : Attempt α) >>= f) = .error e := rfl

@[simp] theorem finish_ok (s t : State) : finish s (.ok t) = .next t := rfl
@[simp] theorem finish_error (s : State) (e : Raised) : finish s (.error e) = .next (raise e s) := rfl

/-- A cycle always ends in a next state: all the writes of the attempt, or the fault entry over the state it began in.
-/
theorem finish_cases {s t : State} {r : Attempt State} (h : finish s r = .next t) :
    r = .ok t ∨ ∃ e, r = .error e ∧ t = raise e s := by
  cases r with
  | ok u => left; simpa [finish] using h
  | error e => right; exact ⟨e, rfl, by simpa [finish, eq_comm] using h⟩

theorem finish_answers (s : State) (r : Attempt State) : ∃ t, finish s r = .next t := by
  cases r with
  | ok u => exact ⟨u, rfl⟩
  | error e => exact ⟨raise e s, rfl⟩

/-! ## The register check (R22) -/

@[simp] theorem regByte_toNat (d : Fin 8) : (regByte d).toNat = d.val := by
  have := d.isLt
  simp only [regByte, BitVec.toNat_ofNat]; omega

theorem regByte_injective {d j : Fin 8} (h : regByte d = regByte j) : d = j := by
  apply Fin.ext; rw [← regByte_toNat d, ← regByte_toNat j, h]

theorem eq_regByte {r : Byte} {d : Fin 8} (h : r.toNat = d.val) : r = regByte d := by
  apply BitVec.eq_of_toNat_eq; rw [regByte_toNat, h]

@[simp] theorem checkReg_regByte (d : Fin 8) : checkReg (regByte d) = .ok d := by
  unfold checkReg
  rw [dif_pos (by rw [regByte_toNat]; exact d.isLt)]
  simp

theorem checkReg_bad {r : Byte} (h : 8 ≤ r.toNat) : checkReg r = .error ⟨.invalidRegister, zext9 r⟩ := by
  unfold checkReg; rw [dif_neg (by omega)]

/-- A register operand names a register or raises InvalidRegister with itself. -/
theorem checkReg_cases (r : Byte) :
    (∃ d : Fin 8, r = regByte d ∧ checkReg r = .ok d) ∨
      (8 ≤ r.toNat ∧ checkReg r = .error ⟨.invalidRegister, zext9 r⟩) := by
  by_cases h : r.toNat < 8
  · left
    have e : r = regByte ⟨r.toNat, h⟩ := eq_regByte rfl
    exact ⟨⟨r.toNat, h⟩, e, dif_pos h⟩
  · right; exact ⟨by omega, checkReg_bad (by omega)⟩

theorem isRegIndex_regByte (d : Fin 8) : isRegIndex (regByte d) = true := by
  simp only [isRegIndex, regByte_toNat, decide_eq_true_eq]; exact d.isLt

theorem isRegIndex_iff (r : Byte) : isRegIndex r = true ↔ r.toNat < 8 := by simp [isRegIndex]

/-! ## The stack pointer's steps (R175, R176) -/

theorem decSp_zero {s : State} (h : s.sp.toNat = 0) : decSp s = .error ⟨.stackOverflow, 0#9⟩ := by
  unfold decSp; rw [if_pos (BitVec.eq_of_toNat_eq h)]

theorem decSp_pos {s : State} (h : s.sp.toNat ≠ 0) : decSp s = .ok (s.setSp (s.sp - 1#8)) := by
  unfold decSp; rw [if_neg]; rintro e; rw [e] at h; exact h rfl

theorem incSp_top {s : State} (h : s.sp.toNat = 255) : incSp s = .error ⟨.stackUnderflow, 255#9⟩ := by
  unfold incSp; rw [if_pos (BitVec.eq_of_toNat_eq h)]

theorem incSp_lt {s : State} (h : s.sp.toNat ≠ 255) : incSp s = .ok (s.setSp (s.sp + 1#8)) := by
  unfold incSp; rw [if_neg]; rintro e; rw [e] at h; exact h rfl

theorem pushAddr_succ {s : State} (h : s.sp.toNat ≠ 0) : pushAddr s + 1 = s.sp.toNat := by
  have := s.sp.isLt
  simp only [pushAddr, BitVec.toNat_sub, BitVec.toNat_ofNat]; omega

theorem succ_sp_toNat {v : Byte} (h : v.toNat ≠ 255) : (v + 1#8).toNat = v.toNat + 1 := by
  have := v.isLt
  simp only [BitVec.toNat_add, BitVec.toNat_ofNat]; omega

theorem pushAddr_lt (s : State) : pushAddr s < 256 := (s.sp - 1#8).isLt
theorem popAddr_lt (s : State) : popAddr s < 256 := s.sp.isLt

/-! ## A push and a pop (R150) -/

/-- The register an operand names, read after the decrement (D10). -/
theorem reg_after_dec (s : State) (d : Fin 8) : (s.setSp (s.sp - 1#8)).reg d = regAfterDec s d := by
  rw [reg_setSp]; rfl

/-- `s` after a push of `v`. -/
def pushed (s : State) (v : Byte) : State :=
  { s.setSp (s.sp - 1#8) with mem := Memory.write s.mem (pushAddr s) v }

@[simp] theorem pushed_mem (s : State) (v : Byte) : (pushed s v).mem = Memory.write s.mem (pushAddr s) v := rfl
@[simp] theorem pushed_pc (s : State) (v : Byte) : (pushed s v).pc = s.pc := rfl
@[simp] theorem pushed_state (s : State) (v : Byte) : (pushed s v).state = s.state := rfl
@[simp] theorem pushed_fault (s : State) (v : Byte) : (pushed s v).fault = s.fault := rfl
@[simp] theorem pushed_out (s : State) (v : Byte) : (pushed s v).out = s.out := rfl
@[simp] theorem pushed_sp (s : State) (v : Byte) : (pushed s v).sp = s.sp - 1#8 := sp_setSp s _
@[simp] theorem pushed_reg (s : State) (v : Byte) (d : Fin 8) : (pushed s v).reg d = regAfterDec s d :=
  reg_after_dec s d
@[simp] theorem pushed_byteAt (s : State) (v : Byte) (a : Nat) :
    (pushed s v).byteAt a = if a = pushAddr s then v else s.byteAt a := read_write s.mem _ _ _

/-- A push raises at `sp = 0`, and else moves `sp` down by one and stores at the new `sp`; the store is never out of
bounds (R65). -/
theorem pushByte_cases (byte : State → Byte) (s : State) :
    (s.sp.toNat = 0 ∧ pushByte byte s = .error ⟨.stackOverflow, 0#9⟩) ∨
      (s.sp.toNat ≠ 0 ∧ pushByte byte s = .ok (pushed s (byte (s.setSp (s.sp - 1#8))))) := by
  unfold pushByte
  by_cases h : s.sp.toNat = 0
  · left; exact ⟨h, by rw [decSp_zero h]; rfl⟩
  · right
    refine ⟨h, ?_⟩
    rw [decSp_pos h, ok_bind, memWrite_ok _ _ (pushAddr_lt s)]
    rfl

/-- The increment raises at 255, and else moves `sp` up by one. -/
theorem incSp_cases (s : State) :
    (s.sp.toNat = 255 ∧ incSp s = .error ⟨.stackUnderflow, 255#9⟩) ∨
      (s.sp.toNat ≠ 255 ∧ incSp s = .ok (s.setSp (s.sp + 1#8))) := by
  by_cases h : s.sp.toNat = 255
  · left; exact ⟨h, incSp_top h⟩
  · right; exact ⟨h, incSp_lt h⟩

/-- A pop's read is never out of bounds (R65). -/
@[simp] theorem popByte_eq (s : State) : popByte s = .ok (s.byteAt s.sp.toNat) := memRead_ok s (popAddr_lt s)

/-! ## The ALU (R140) -/

theorem alu_toNat (op : AluOp) (u v : Byte) : (alu op u v).toNat = aluExact op u v % 256 := by simp [alu]

/-- MUL and ADD raise for operand a, else for operand b, and else write operand a and advance by 3. -/
theorem aluApply_cases (op : AluOp) (ra rb : Byte) (s : State) :
    (8 ≤ ra.toNat ∧ aluApply op ra rb s = .error ⟨.invalidRegister, zext9 ra⟩) ∨
    (∃ a, ra = regByte a ∧ 8 ≤ rb.toNat ∧ aluApply op ra rb s = .error ⟨.invalidRegister, zext9 rb⟩) ∨
    (∃ a b, ra = regByte a ∧ rb = regByte b ∧
      aluApply op ra rb s = .ok ((s.setReg a (alu op (s.reg a) (s.reg b))).advance 3)) := by
  unfold aluApply
  obtain ⟨a, rfl, ha⟩ | ⟨h, ha⟩ := checkReg_cases ra
  · obtain ⟨b, rfl, hb⟩ | ⟨h, hb⟩ := checkReg_cases rb
    · right; right; exact ⟨a, b, rfl, rfl, by rw [ha, hb]; rfl⟩
    · right; left; exact ⟨a, rfl, h, by rw [ha, hb]; rfl⟩
  · left; exact ⟨h, by rw [ha]; rfl⟩

/-! ## The fetch and the dispatch (R110 to R114) -/

theorem memRead_ge {a : Nat} (s : State) (h : 256 ≤ a) :
    memRead a s = .error ⟨.outOfBounds, BitVec.ofNat 9 a⟩ := if_neg (by omega)

theorem fetch_ok {s : State} (h : s.Fetchable) : fetch s = .ok (s.fetched 0, s.fetched 1, s.fetched 2) := by
  unfold State.Fetchable at h
  unfold fetch
  rw [memRead_ok _ (by omega), memRead_ok _ (by omega), memRead_ok _ (by omega)]
  rfl

/-- A decoded triple is executed, and any other raises UnknownOpcode with its opcode byte. -/
theorem dispatch_cases (opc : Opc) (o a b : Byte) (s : State) :
    (∃ i, decode opc o a b = .ok i ∧ dispatch opc o a b s = exec i s) ∨
      (decode opc o a b = .error (.unknownOpcode o) ∧
        dispatch opc o a b s = .next (raise ⟨.unknownOpcode, zext9 o⟩ s)) := by
  unfold dispatch
  cases h : decode opc o a b with
  | ok i => left; exact ⟨i, rfl, rfl⟩
  | error e =>
    right
    refine ⟨?_, rfl⟩
    unfold decode at h
    split at h
    · exact h.symm
    · cases h

/-- A running machine runs one cycle of the engine. -/
theorem cycle_running (opc : Opc) {s : State} (h : s.state = .running) : cycle opc s = runCycle opc s := by
  unfold cycle; rw [h]

/-- A terminal state is absorbing (R116). -/
theorem cycle_terminal (opc : Opc) {s : State} (h : s.Terminal) : cycle opc s = .next s := by
  unfold cycle
  cases hs : s.state with
  | running => exact absurd hs h
  | halted => rfl
  | faulted => rfl

theorem runCycle_fetchable (opc : Opc) {s : State} (h : s.Fetchable) :
    runCycle opc s = dispatch opc (s.fetched 0) (s.fetched 1) (s.fetched 2) s := by
  unfold runCycle; rw [fetch_ok h]

end Sys2Proof.Machine
end

