-- ==== Sys2Proof/Laws/Exec.lean ====
section
/-!
SUPPORT. One lemma per meaning: everything it can answer, as equations over the shared updates. Later proofs cite these
and do not unfold a meaning.
-/

namespace Sys2Proof.Machine

/-- An instruction whose first check fails is the fault entry of InvalidRegister. -/
theorem finish_checkReg_bad {r : Byte} (s : State) (f : Fin 8 → Attempt State) (h : 8 ≤ r.toNat) :
    finish s (checkReg r >>= f) = .next (s.withFault .invalidRegister r.toNat) := by
  rw [checkReg_bad h, error_bind, finish_error, zext9_eq_ofNat, raise_eq_withFault]

theorem execLdi_cases (r imm : Byte) (s : State) :
    (8 ≤ r.toNat ∧ execLdi r imm s = .next (s.withFault .invalidRegister r.toNat)) ∨
      (∃ d, r = regByte d ∧ execLdi r imm s = .next ((s.setReg d imm).advance 3)) := by
  obtain ⟨d, rfl, h⟩ | ⟨h, -⟩ := checkReg_cases r
  · right; exact ⟨d, rfl, by unfold execLdi; rw [h]; rfl⟩
  · left; exact ⟨h, finish_checkReg_bad s _ h⟩

theorem execPrn_cases (r : Byte) (s : State) :
    (8 ≤ r.toNat ∧ execPrn r s = .next (s.withFault .invalidRegister r.toNat)) ∨
      (∃ d, r = regByte d ∧ execPrn r s = .next ((s.emit (s.reg d)).advance 2)) := by
  obtain ⟨d, rfl, h⟩ | ⟨h, -⟩ := checkReg_cases r
  · right; exact ⟨d, rfl, by unfold execPrn; rw [h]; rfl⟩
  · left; exact ⟨h, finish_checkReg_bad s _ h⟩

/-- MUL and ADD: the fault of operand a, else of operand b, else the write of operand a. -/
theorem finish_aluApply_cases (op : AluOp) (ra rb : Byte) (s : State) :
    (8 ≤ ra.toNat ∧ finish s (aluApply op ra rb s) = .next (s.withFault .invalidRegister ra.toNat)) ∨
    (∃ a, ra = regByte a ∧ 8 ≤ rb.toNat ∧
      finish s (aluApply op ra rb s) = .next (s.withFault .invalidRegister rb.toNat)) ∨
    (∃ a b, ra = regByte a ∧ rb = regByte b ∧
      finish s (aluApply op ra rb s) = .next ((s.setReg a (alu op (s.reg a) (s.reg b))).advance 3)) := by
  obtain ⟨h, e⟩ | ⟨a, ha, h, e⟩ | ⟨a, b, ha, hb, e⟩ := aluApply_cases op ra rb s
  · left; exact ⟨h, by rw [e, finish_error, zext9_eq_ofNat, raise_eq_withFault]⟩
  · right; left; exact ⟨a, ha, h, by rw [e, finish_error, zext9_eq_ofNat, raise_eq_withFault]⟩
  · right; right; exact ⟨a, b, ha, hb, by rw [e, finish_ok]⟩

theorem execPush_cases (r : Byte) (s : State) :
    (8 ≤ r.toNat ∧ execPush r s = .next (s.withFault .invalidRegister r.toNat)) ∨
    (∃ d, r = regByte d ∧ s.sp.toNat = 0 ∧ execPush r s = .next (s.withFault .stackOverflow 0)) ∨
    (∃ d, r = regByte d ∧ s.sp.toNat ≠ 0 ∧ execPush r s = .next ((pushed s (regAfterDec s d)).advance 2)) := by
  obtain ⟨d, rfl, h⟩ | ⟨h, -⟩ := checkReg_cases r
  · obtain ⟨h0, e⟩ | ⟨h0, e⟩ := pushByte_cases (fun u => u.reg d) s
    · right; left; exact ⟨d, rfl, h0, by unfold execPush; rw [h, ok_bind, e]; rfl⟩
    · right; right
      exact ⟨d, rfl, h0, by unfold execPush; rw [h, ok_bind, e, ok_bind, finish_ok, reg_after_dec]⟩
  · left; exact ⟨h, finish_checkReg_bad s _ h⟩

/-- POP: `v`, the value `sp` has once `x[r]` is written, is the popped byte for `R7` and `sp` itself for any other. -/
theorem execPop_cases (r : Byte) (s : State) :
    (8 ≤ r.toNat ∧ execPop r s = .next (s.withFault .invalidRegister r.toNat)) ∨
    (∃ d, r = regByte d ∧ (if d = spIndex then s.byteAt s.sp.toNat else s.sp).toNat = 255 ∧
      execPop r s = .next (s.withFault .stackUnderflow 255)) ∨
    (∃ d v, r = regByte d ∧ v = (if d = spIndex then s.byteAt s.sp.toNat else s.sp) ∧ v.toNat ≠ 255 ∧
      execPop r s = .next (((s.setReg d (s.byteAt s.sp.toNat)).setSp (v + 1#8)).advance 2)) := by
  obtain ⟨d, rfl, h⟩ | ⟨h, -⟩ := checkReg_cases r
  · have hs : (s.setReg d (s.byteAt s.sp.toNat)).sp = if d = spIndex then s.byteAt s.sp.toNat else s.sp := by
      rw [sp_setReg]; simp only [eq_comm]
    obtain ⟨h0, e⟩ | ⟨h0, e⟩ := incSp_cases (s.setReg d (s.byteAt s.sp.toNat))
    · right; left
      exact ⟨d, rfl, hs ▸ h0, by unfold execPop; rw [h, ok_bind, popByte_eq, ok_bind, e]; rfl⟩
    · right; right
      exact ⟨d, _, rfl, hs, h0, by unfold execPop; rw [h, ok_bind, popByte_eq, ok_bind, e]; rfl⟩
  · left; exact ⟨h, finish_checkReg_bad s _ h⟩

theorem execCall_cases (r : Byte) (s : State) :
    (8 ≤ r.toNat ∧ execCall r s = .next (s.withFault .invalidRegister r.toNat)) ∨
    (∃ d, r = regByte d ∧ s.sp.toNat = 0 ∧ execCall r s = .next (s.withFault .stackOverflow 0)) ∨
    (∃ d, r = regByte d ∧ s.sp.toNat ≠ 0 ∧
      execCall r s = .next ((pushed s (returnAddress s)).jump (regAfterDec s d))) := by
  obtain ⟨d, rfl, h⟩ | ⟨h, -⟩ := checkReg_cases r
  · obtain ⟨h0, e⟩ | ⟨h0, e⟩ := pushByte_cases (fun _ => returnAddress s) s
    · right; left; exact ⟨d, rfl, h0, by unfold execCall; rw [h, ok_bind, e]; rfl⟩
    · right; right
      exact ⟨d, rfl, h0, by unfold execCall; rw [h, ok_bind, e, ok_bind, finish_ok, pushed_reg]⟩
  · left; exact ⟨h, finish_checkReg_bad s _ h⟩

theorem execRet_cases (s : State) :
    (s.sp.toNat = 255 ∧ execRet s = .next (s.withFault .stackUnderflow 255)) ∨
      (s.sp.toNat ≠ 255 ∧ execRet s = .next ((s.setSp (s.sp + 1#8)).jump (s.byteAt s.sp.toNat))) := by
  obtain ⟨h, e⟩ | ⟨h, e⟩ := incSp_cases s
  · left; exact ⟨h, by unfold execRet; rw [popByte_eq, ok_bind, e]; rfl⟩
  · right; exact ⟨h, by unfold execRet; rw [popByte_eq, ok_bind, e]; rfl⟩

/-- A return address fits a byte wherever an instruction can run (R160). -/
theorem returnAddress_toNat {s : State} (h : s.Fetchable) : (returnAddress s).toNat = s.pc.toNat + 2 := by
  unfold State.Fetchable at h
  simp only [returnAddress, BitVec.toNat_ofNat]; omega

end Sys2Proof.Machine
end

