-- ==== Sys2Proof/Laws/PerInstr.lean ====
section
/-!
SUPPORT. Facts about every instruction as syntax, one lemma per constructor (LAWS.json).
-/

namespace Sys2Proof.Laws.EncodedForm

/-- An instruction is encoded as its opcode byte and then its operands, in as many bytes as the format of its mnemonic
says (R80, R81, R85), and it is made again from its mnemonic and its operand bytes. -/
def Statement (i : Instr) : Prop :=
  ∀ opc : Opc, (encode opc i).length = i.op.length ∧ (encode opc i).head? = some (opcodeByte opc i.op) ∧
    i.op.withOperands (i.operandBytes.getD 0 0) (i.operandBytes.getD 1 0) = i

theorem hlt : Statement .hlt := fun _ => ⟨rfl, rfl, rfl⟩
theorem ldi (r imm : Byte) : Statement (.ldi r imm) := fun _ => ⟨rfl, rfl, rfl⟩
theorem prn (r : Byte) : Statement (.prn r) := fun _ => ⟨rfl, rfl, rfl⟩
theorem mul (ra rb : Byte) : Statement (.mul ra rb) := fun _ => ⟨rfl, rfl, rfl⟩
theorem add (ra rb : Byte) : Statement (.add ra rb) := fun _ => ⟨rfl, rfl, rfl⟩
theorem push (r : Byte) : Statement (.push r) := fun _ => ⟨rfl, rfl, rfl⟩
theorem pop (r : Byte) : Statement (.pop r) := fun _ => ⟨rfl, rfl, rfl⟩
theorem call (r : Byte) : Statement (.call r) := fun _ => ⟨rfl, rfl, rfl⟩
theorem ret : Statement .ret := fun _ => ⟨rfl, rfl, rfl⟩

end Sys2Proof.Laws.EncodedForm
end

