-- ==== Sys2Proof/Laws/Run.lean ====
section
/-!
SUPPORT. What one cycle and one step can do, said once over all instructions, and how a run of several steps unfolds.
-/

namespace Sys2Proof.Machine

/-- A byte of 8 to 255 is no register index. -/
theorem isRegIndex_bad {r : Byte} (h : 8 ≤ r.toNat) : isRegIndex r = false := decide_eq_false (by omega)

/-- The first bad register byte, where operand a is bad. -/
theorem find_bad_a {r : Byte} (rest : List Byte) (h : 8 ≤ r.toNat) :
    (r :: rest).find? (fun q => !isRegIndex q) = some r := by
  simp [isRegIndex_bad h]

/-- The first bad register byte, where operand b alone is bad. -/
theorem find_bad_b (d : Fin 8) {r : Byte} (h : 8 ≤ r.toNat) :
    [regByte d, r].find? (fun q => !isRegIndex q) = some r := by
  simp [isRegIndex_bad h, isRegIndex_regByte]

/-- Everything an instruction can do (R115 to R161): a fault entry, or its own effect over the shared updates. -/
inductive Effect (s : State) : Instr → State → Prop
  | badIndex (i : Instr) (r : Byte) (h : i.regOperands.find? (fun q => !isRegIndex q) = some r) :
      Effect s i (s.withFault .invalidRegister r.toNat)
  | overflow (i : Instr) (d : Fin 8) (hi : i = .push (regByte d) ∨ i = .call (regByte d)) (h : s.sp.toNat = 0) :
      Effect s i (s.withFault .stackOverflow 0)
  | underflowPop (d : Fin 8) (h : (if d = spIndex then s.byteAt s.sp.toNat else s.sp).toNat = 255) :
      Effect s (.pop (regByte d)) (s.withFault .stackUnderflow 255)
  | underflowRet (h : s.sp.toNat = 255) : Effect s .ret (s.withFault .stackUnderflow 255)
  | hlt : Effect s .hlt { s with state := .halted }
  | ldi (d : Fin 8) (imm : Byte) : Effect s (.ldi (regByte d) imm) ((s.setReg d imm).advance 3)
  | prn (d : Fin 8) : Effect s (.prn (regByte d)) ((s.emit (s.reg d)).advance 2)
  | mul (a b : Fin 8) : Effect s (.mul (regByte a) (regByte b)) ((s.setReg a (alu .mul (s.reg a) (s.reg b))).advance 3)
  | add (a b : Fin 8) : Effect s (.add (regByte a) (regByte b)) ((s.setReg a (alu .add (s.reg a) (s.reg b))).advance 3)
  | push (d : Fin 8) (h : s.sp.toNat ≠ 0) : Effect s (.push (regByte d)) ((pushed s (regAfterDec s d)).advance 2)
  | pop (d : Fin 8) (v : Byte) (hv : v = if d = spIndex then s.byteAt s.sp.toNat else s.sp) (h : v.toNat ≠ 255) :
      Effect s (.pop (regByte d)) (((s.setReg d (s.byteAt s.sp.toNat)).setSp (v + 1#8)).advance 2)
  | call (d : Fin 8) (h : s.sp.toNat ≠ 0) :
      Effect s (.call (regByte d)) ((pushed s (returnAddress s)).jump (regAfterDec s d))
  | ret (h : s.sp.toNat ≠ 255) : Effect s .ret ((s.setSp (s.sp + 1#8)).jump (s.byteAt s.sp.toNat))

/-- Every instruction answers a next state in every state, and the state is one of its effects. -/
theorem exec_answers (i : Instr) (s : State) : ∃ t, exec i s = .next t ∧ Effect s i t := by
  cases i with
  | hlt => exact ⟨_, rfl, .hlt⟩
  | ldi r imm =>
    obtain ⟨h, e⟩ | ⟨d, rfl, e⟩ := execLdi_cases r imm s
    · exact ⟨_, e, .badIndex _ _ (find_bad_a _ h)⟩
    · exact ⟨_, e, .ldi d imm⟩
  | prn r =>
    obtain ⟨h, e⟩ | ⟨d, rfl, e⟩ := execPrn_cases r s
    · exact ⟨_, e, .badIndex _ _ (find_bad_a _ h)⟩
    · exact ⟨_, e, .prn d⟩
  | mul ra rb =>
    obtain ⟨h, e⟩ | ⟨a, rfl, h, e⟩ | ⟨a, b, rfl, rfl, e⟩ := finish_aluApply_cases .mul ra rb s
    · exact ⟨_, e, .badIndex _ _ (find_bad_a _ h)⟩
    · exact ⟨_, e, .badIndex _ _ (find_bad_b a h)⟩
    · exact ⟨_, e, .mul a b⟩
  | add ra rb =>
    obtain ⟨h, e⟩ | ⟨a, rfl, h, e⟩ | ⟨a, b, rfl, rfl, e⟩ := finish_aluApply_cases .add ra rb s
    · exact ⟨_, e, .badIndex _ _ (find_bad_a _ h)⟩
    · exact ⟨_, e, .badIndex _ _ (find_bad_b a h)⟩
    · exact ⟨_, e, .add a b⟩
  | push r =>
    obtain ⟨h, e⟩ | ⟨d, rfl, h, e⟩ | ⟨d, rfl, h, e⟩ := execPush_cases r s
    · exact ⟨_, e, .badIndex _ _ (find_bad_a _ h)⟩
    · exact ⟨_, e, .overflow _ d (.inl rfl) h⟩
    · exact ⟨_, e, .push d h⟩
  | pop r =>
    obtain ⟨h, e⟩ | ⟨d, rfl, h, e⟩ | ⟨d, v, rfl, hv, h, e⟩ := execPop_cases r s
    · exact ⟨_, e, .badIndex _ _ (find_bad_a _ h)⟩
    · exact ⟨_, e, .underflowPop d h⟩
    · exact ⟨_, e, .pop d v hv h⟩
  | call r =>
    obtain ⟨h, e⟩ | ⟨d, rfl, h, e⟩ | ⟨d, rfl, h, e⟩ := execCall_cases r s
    · exact ⟨_, e, .badIndex _ _ (find_bad_a _ h)⟩
    · exact ⟨_, e, .overflow _ d (.inr rfl) h⟩
    · exact ⟨_, e, .call d h⟩
  | ret =>
    obtain ⟨h, e⟩ | ⟨h, e⟩ := execRet_cases s
    · exact ⟨_, e, .underflowRet h⟩
    · exact ⟨_, e, .ret h⟩

/-- The inversion of `exec`. -/
theorem effect_of_exec {i : Instr} {s t : State} (h : exec i s = .next t) : Effect s i t := by
  obtain ⟨u, e, hu⟩ := exec_answers i s
  cases e.symm.trans h
  exact hu

/-- Everything a cycle can do: nothing in a terminal state; a fetch fault; UnknownOpcode; or the instruction. -/
theorem cycle_cases (opc : Opc) (s : State) :
    (s.Terminal ∧ cycle opc s = .next s) ∨
    (s.state = .running ∧ ¬ s.Fetchable ∧ ∃ n, cycle opc s = .next (s.withFault .outOfBounds n) ∧
      (s.pc.toNat ≤ 256 → n = 256)) ∨
    (s.state = .running ∧ s.Fetchable ∧ findOp opc (s.fetched 0) = none ∧
      cycle opc s = .next (s.withFault .unknownOpcode (s.fetched 0).toNat)) ∨
    (s.state = .running ∧ s.Fetchable ∧ ∃ op, findOp opc (s.fetched 0) = some op ∧
      cycle opc s = exec (op.withOperands (s.fetched 1) (s.fetched 2)) s) := by
  by_cases hr : s.state = .running
  · right
    by_cases hf : s.Fetchable
    · right
      have hc : cycle opc s = dispatch opc (s.fetched 0) (s.fetched 1) (s.fetched 2) s := by
        rw [cycle_running opc hr, runCycle_fetchable opc hf]
      unfold dispatch decode at hc
      cases hd : findOp opc (s.fetched 0) with
      | none =>
        left
        rw [hd] at hc
        exact ⟨hr, hf, rfl, by rw [hc, zext9_eq_ofNat]; rfl⟩
      | some op =>
        right
        rw [hd] at hc
        exact ⟨hr, hf, op, rfl, hc⟩
    · left
      unfold State.Fetchable at hf
      have key : ∃ n, fetch s = .error ⟨.outOfBounds, BitVec.ofNat 9 n⟩ ∧ (s.pc.toNat ≤ 256 → n = 256) := by
        by_cases h : s.pc.toNat = 254
        · exact ⟨256, by unfold fetch; rw [h]; rfl, fun _ => rfl⟩
        · by_cases h' : s.pc.toNat = 255
          · exact ⟨256, by unfold fetch; rw [h']; rfl, fun _ => rfl⟩
          · exact ⟨s.pc.toNat, by unfold fetch; rw [memRead_ge s (by omega)]; rfl, fun _ => by omega⟩
      obtain ⟨n, hn, h6⟩ := key
      exact ⟨hr, by unfold State.Fetchable; omega, n, by rw [cycle_running opc hr]; unfold runCycle; rw [hn]; rfl, h6⟩
  · left; exact ⟨hr, cycle_terminal opc hr⟩

/-- Every cycle answers a next state. -/
theorem cycle_answers (opc : Opc) (s : State) : ∃ t, cycle opc s = .next t := by
  obtain ⟨-, h⟩ | ⟨-, -, n, h, -⟩ | ⟨-, -, -, h⟩ | ⟨-, -, op, -, h⟩ := cycle_cases opc s
  · exact ⟨_, h⟩
  · exact ⟨_, h⟩
  · exact ⟨_, h⟩
  · obtain ⟨t, e, -⟩ := exec_answers (op.withOperands (s.fetched 1) (s.fetched 2)) s
    exact ⟨t, h.trans e⟩

/-! ## Runs -/

theorem run_succ_of_next (M : Host.Core) {n : Nat} {s t : M.State} (h : M.step s = .next t) :
    M.run (n + 1) s = M.run n t := by
  simp [Host.Core.run, h]

/-- No steps. -/
theorem run_zero (s : State) : Host.Core.run Sys2Proof.core 0 s = .next s := rfl

/-- One step, then the rest. -/
theorem run_succ {n : Nat} {s t : State} (h : step s = .next t) :
    Host.Core.run Sys2Proof.core (n + 1) s = Host.Core.run Sys2Proof.core n t :=
  run_succ_of_next Sys2Proof.core h

end Sys2Proof.Machine
end

