-- ==== Sys2Proof/Tests/Slice0.lean ====
section
/-!
SUPPORT. Tests of the model. Expected results come from spec/: the encodings from 30_encoding.md R81 and R88, the
one-step results from the vectors of 95_test_vectors.md (their ids stand in the docstrings). The `witness_` theorems
show that the hypotheses of each statement of Certificates/Slice0/Obligations.lean are met together, at the edges of
their ranges.
-/

namespace Sys2Proof.Tests

open Sys2Proof Sys2Proof.Machine

/-! ## Helpers -/

/-- Bytes placed from an address up. -/
def place (s : State) (a : Nat) (bytes : List Byte) : State :=
  match bytes with
  | [] => s
  | b :: rest => place (s.placeByte a b) (a + 1) rest

/-- Registers set one after another. -/
def withRegs (s : State) (rs : List (Fin 8 × Byte)) : State :=
  match rs with
  | [] => s
  | r :: rest => withRegs (s.setReg r.1 r.2) rest

/-- The reset state with `pc`, the bytes at `pc` and some registers set: the "before" of a vector. -/
def start (pc : Nat) (bytes : List Byte) (rs : List (Fin 8 × Byte)) : State :=
  withRegs (place { State.reset with pc := BitVec.ofNat 9 pc } pc bytes) rs

/-- The outcome is a next state of which `p` holds. -/
def nextIs (r : Result) (p : State → Bool) : Bool :=
  match r with
  | .next t => p t
  | .fault _ => false
  | .refused _ => false

/-- The outcome is the start state with exactly this fault entered, as a vector writes `Kind(info) at pc=p`. -/
def faultIs (s : State) (kind : ErrorKind) (info : Nat) : Bool :=
  nextIs (step s) (fun t => decide (t = s.withFault kind info))

/-! ## WellFormed refuses what R92 calls illegal -/

theorem test_wellFormed_refuses_bad_index :
    (Instr.ldi 8#8 0#8).wellFormed = false ∧ (Instr.prn 255#8).wellFormed = false ∧
    (Instr.mul 8#8 0#8).wellFormed = false ∧ (Instr.mul 0#8 8#8).wellFormed = false ∧
    (Instr.add 9#8 0#8).wellFormed = false ∧ (Instr.add 1#8 200#8).wellFormed = false ∧
    (Instr.push 9#8).wellFormed = false ∧ (Instr.pop 8#8).wellFormed = false ∧
    (Instr.call 16#8).wellFormed = false := by decide

theorem test_wellFormed_admits_every_immediate_and_r7 :
    (Instr.ldi 7#8 255#8).wellFormed = true ∧ (Instr.mul 7#8 7#8).wellFormed = true ∧ Instr.ret.wellFormed = true := by
  decide

/-! ## Every constructor decoded from a word written out from R81 and R88 (first byte rightmost) -/

theorem test_decode_hlt : decodeTableWord 8 0b00000001 = some .hlt := by decide
theorem test_decode_ldi : decodeTableWord 24 0b11110000_00000011_10000010 = some (.ldi 3#8 0xF0#8) := by decide
theorem test_decode_prn : decodeTableWord 16 0b00000101_01000111 = some (.prn 5#8) := by decide
theorem test_decode_mul : decodeTableWord 24 0b00000010_00000001_10100010 = some (.mul 1#8 2#8) := by decide
theorem test_decode_add : decodeTableWord 24 0b00000100_00000011_10100000 = some (.add 3#8 4#8) := by decide
theorem test_decode_push : decodeTableWord 16 0b00000110_01000101 = some (.push 6#8) := by decide
theorem test_decode_pop : decodeTableWord 16 0b00000111_01000110 = some (.pop 7#8) := by decide
theorem test_decode_call : decodeTableWord 16 0b00000001_01010000 = some (.call 1#8) := by decide
theorem test_decode_ret : decodeTableWord 8 0b00010001 = some .ret := by decide

/-- R90: 247 of the 256 byte values are illegal under the defaults. -/
theorem test_247_illegal_opcodes :
    ((List.range 256).filter (fun n => (findOp defaultOpc (BitVec.ofNat 8 n)).isNone)).length = 247 := by
  decide +kernel

theorem test_encode_add : encode defaultOpc (.add 3#8 4#8) = [0xA0#8, 0x03#8, 0x04#8] := by decide
theorem test_decodeBytes_truncated : decodeBytes defaultOpc [0x82#8, 0x00#8] = .error .truncated := by rfl

/-! ## One step (spec/95_test_vectors.md section 2) -/

/-- V-HLT-2. -/
theorem test_hlt_at_253 :
    nextIs (step (start 253 [0x01] [])) (fun t => t.state == .halted && t.pc == 253#9) = true := by decide
/-- V-HLT-5. -/
theorem test_hlt_ignores_operands :
    nextIs (step (start 0 [0x01, 0xFF, 0xFF] [])) (fun t => t.state == .halted && t.pc == 0#9) = true := by decide
/-- V-HLT-4. -/
theorem test_fetch_fault_at_255 : faultIs (start 255 [0x01] []) .outOfBounds 256 = true := by decide
/-- V-UNK-3. -/
theorem test_unknown_opcode : faultIs (start 0 [0xA1, 0x00, 0x01] []) .unknownOpcode 0xA1 = true := by decide
/-- V-END-1. -/
theorem test_halted_is_absorbing :
    nextIs (step { start 0 [0x82, 0x00, 0x05] [] with state := .halted })
      (fun t => decide (t = { start 0 [0x82, 0x00, 0x05] [] with state := .halted })) = true := by decide

/-- V-FET-1. -/
theorem test_ldi_at_253 :
    nextIs (step (start 253 [0x82, 0x00, 0x05] [])) (fun t => t.reg 0 == 5#8 && t.pc == 256#9) = true := by decide
/-- V-LDI-4. -/
theorem test_ldi_bad_register : faultIs (start 0 [0x82, 0x08, 0x10] []) .invalidRegister 8 = true := by decide
/-- V-PRN-2. -/
theorem test_prn_stack_pointer :
    nextIs (step (start 0 [0x47, 0x07] [])) (fun t => t.out == [244#8] && t.pc == 2#9) = true := by decide
/-- V-PRN-3. -/
theorem test_prn_bad_register : faultIs (start 0 [0x47, 0xFF] []) .invalidRegister 255 = true := by decide
/-- V-MUL-3. -/
theorem test_mul_low_byte :
    nextIs (step (start 0 [0xA2, 0x00, 0x01] [(0, 255), (1, 255)])) (fun t => t.reg 0 == 1#8 && t.reg 1 == 255#8) = true := by
  decide
/-- V-MUL-8. -/
theorem test_mul_operand_a_first : faultIs (start 0 [0xA2, 0x08, 0x09] []) .invalidRegister 8 = true := by decide
/-- V-ADD-5. -/
theorem test_add_wraps_stack_pointer :
    nextIs (step (start 0 [0xA0, 0x07, 0x00] [(0, 0x10)])) (fun t => t.sp == 0x04#8 && t.pc == 3#9) = true := by decide
/-- V-ADD-6. -/
theorem test_add_bad_operand_b : faultIs (start 0 [0xA0, 0x01, 0xC8] []) .invalidRegister 200 = true := by decide
/-- V-STK-2. -/
theorem test_push_r7_stores_decremented :
    nextIs (step (start 0 [0x45, 0x07] [])) (fun t => t.sp == 0xF3#8 && t.byteAt 0xF3 == 0xF3#8) = true := by decide
/-- V-STK-4. -/
theorem test_push_at_zero : faultIs (start 0 [0x45, 0x00] [(0, 0x99), (7, 0)]) .stackOverflow 0 = true := by decide
/-- V-STK-8. -/
theorem test_pop_r7_is_popped_plus_one :
    nextIs (step (place (start 0 [0x46, 0x07] [(7, 0xF3)]) 0xF3 [0x20])) (fun t => t.sp == 0x21#8 && t.pc == 2#9) = true := by
  decide
/-- V-STK-12. -/
theorem test_pop_at_255 :
    faultIs (place (start 0 [0x46, 0x00] [(7, 255)]) 255 [0x07]) .stackUnderflow 255 = true := by decide
/-- V-CAL-2. -/
theorem test_call_r7 :
    nextIs (step (start 0x10 [0x50, 0x07] [])) (fun t => t.byteAt 0xF3 == 0x12#8 && t.pc == 0xF3#9) = true := by decide
/-- V-CAL-5. -/
theorem test_call_largest_return_address :
    nextIs (step (start 253 [0x50, 0x00] [(0, 0x40)])) (fun t => t.byteAt 0xF3 == 0xFF#8 && t.pc == 0x40#9) = true := by
  decide
/-- V-RET-1. -/
theorem test_ret :
    nextIs (step (place (start 0x0E [0x11] [(7, 0xF3)]) 0xF3 [0x08])) (fun t => t.pc == 8#9 && t.sp == 0xF4#8) = true := by
  decide
/-- V-RET-3. -/
theorem test_ret_at_255 : faultIs (place (start 0 [0x11] [(7, 255)]) 255 [0x10]) .stackUnderflow 255 = true := by decide

/-! ## Memory, ports -/

/-- The canonical form: writing the reset value takes the cell out again, and cells stay in rising order (log entry
6). -/
theorem test_write_is_canonical :
    Memory.write (Memory.write (Memory.write [] 5 1#8) 3 2#8) 5 0#8 = [(3, 2#8)] ∧
    Memory.write (Memory.write [] 5 1#8) 3 2#8 = [(3, 2#8), (5, 1#8)] := by decide

theorem test_status_port_of_a_fault :
    statusPort ((start 254 [] []).withFault .outOfBounds 256) =
      { state := 2#2, faultCode := 1#3, faultPc := some 254#9, faultInfo := some 256#9 } := by decide

theorem test_load_port_closed_after_start :
    ((Block.atReset.input .start).bind (fun b => b.input (.load 0#8 1#8))) = none := by decide

/-! ## Witnesses for the hypotheses of the statements -/

theorem witness_DecodeOfEncodeIsIdentity : validOpc defaultOpc := by decide

theorem witness_DecodedBytesAreTheEncoding :
    decodeBytes defaultOpc [0x82#8, 0x03#8, 0x08#8, 0x47#8] = .ok (.ldi 3#8 8#8, [0x47#8]) := by rfl

theorem witness_DecodeRejectsExactlyBytesOutsideTheMap :
    decode defaultOpc 0xFF#8 0#8 0#8 = .error (.unknownOpcode 0xFF#8) := by rfl

theorem witness_DecodeReadsExactlyTheUsedOperandBytes :
    findOp defaultOpc 0x11#8 = some .ret ∧ findOp defaultOpc 0x45#8 = some .push ∧ findOp defaultOpc 0xA2#8 = some .mul := by
  decide

theorem witness_StepRunsTheDecodedInstruction :
    ∃ s : State, s.state = .running ∧ s.Fetchable ∧ s.pc = 253#9 ∧
      decode defaultOpc (s.fetched 0) (s.fetched 1) (s.fetched 2) = .ok (.ldi 0#8 5#8) :=
  ⟨start 253 [0x82, 0x00, 0x05] [], by decide, by decide, by decide, by rfl⟩

theorem witness_PlacedWordIsRunByNextStep :
    State.reset.state = .running ∧ State.reset.Fetchable ∧ decodeTableWord 16 0x0045 = some (.push 0#8) := by decide

theorem witness_FetchReadsThreeCellsOrFaultsAtTheTop :
    (start 253 [] []).Fetchable ∧ 254 ≤ (start 254 [] []).pc.toNat ∧ (start 254 [] []).state = .running ∧
      254 ≤ (start 256 [] []).pc.toNat ∧ (start 256 [] []).state = .running := by decide

theorem witness_HltByteHaltsWhateverFollows :
    (start 253 [0x01, 0xFF, 0xFF] []).state = .running ∧ (start 253 [0x01, 0xFF, 0xFF] []).fetched 0 = 0x01#8 ∧
      (start 253 [0x01, 0xFF, 0xFF] []).Fetchable ∧ (start 254 [0x01] []).state = .running ∧
      (start 254 [0x01] []).fetched 0 = 0x01#8 ∧ ¬ (start 254 [0x01] []).Fetchable := by decide

theorem witness_UnknownOpcodeFaults :
    (start 253 [0xA1] []).state = .running ∧ (start 253 [0xA1] []).Fetchable ∧
      ∀ op : Op, opcodeByte defaultOpc op ≠ (start 253 [0xA1] []).fetched 0 :=
  ⟨by decide, by decide, fun op => by cases op <;> decide⟩

/-- The hypotheses of the LDI, PRN, MUL and ADD statements, and those of the last clause of PUSH, POP and CALL: the
last address that can be fetched, the first and the last byte that names no register. -/
theorem witness_register_instructions :
    (start 253 [] []).Fetchable ∧ 8 ≤ (8#8).toNat ∧ 8 ≤ (255#8).toNat := by decide

theorem witness_PushStoresBelowTheStackPointer :
    (start 253 [] [(7, 1)]).Fetchable ∧ (start 253 [] [(7, 1)]).sp.toNat ≠ 0 ∧
      (start 253 [] [(7, 0)]).Fetchable ∧ (start 253 [] [(7, 0)]).sp.toNat = 0 := by decide

theorem witness_PopLoadsFromTheStackPointer :
    (start 0 [] [(7, 254)]).Fetchable ∧ (start 0 [] [(7, 254)]).sp.toNat ≠ 255 ∧
      (start 0 [] [(7, 255)]).sp.toNat = 255 ∧ (0 : Fin 8) ≠ spIndex ∧
      ((place (start 0 [] []) 0xF4 [254]).byteAt 0xF4).toNat ≠ 255 ∧
      ((place (start 0 [] []) 0xF4 [255]).byteAt (place (start 0 [] []) 0xF4 [255]).sp.toNat).toNat = 255 := by decide

theorem witness_CallPushesTheReturnAddressAndJumps :
    (start 253 [] [(7, 1)]).Fetchable ∧ (start 253 [] [(7, 1)]).sp.toNat ≠ 0 ∧ (start 253 [] [(7, 0)]).sp.toNat = 0 := by
  decide

theorem witness_RetPopsTheProgramCounter :
    (start 0 [] [(7, 254)]).sp.toNat ≠ 255 ∧ (start 0 [] [(7, 255)]).sp.toNat = 255 := by decide

theorem witness_InvalidRegisterExactlyForBadIndices :
    (Instr.mul 0#8 8#8).regOperands.find? (fun q => !isRegIndex q) = some 8#8 ∧
      (Instr.push 0#8).wellFormed = true ∧
      ∃ t f, exec (.push 0#8) (start 0 [] [(7, 0)]) = .next t ∧ t.fault = some f ∧
        (start 0 [] [(7, 0)]).fault = none :=
  ⟨by decide, by decide, _, _, rfl, rfl, rfl⟩

theorem witness_ProgramCounterAfterEachInstruction :
    (start 253 [] []).Fetchable ∧
      (∃ t, exec (.ldi 0#8 5#8) (start 253 [] []) = .next t ∧ t.state ≠ .faulted) ∧
      (∃ t, exec (.push 8#8) (start 253 [] []) = .next t ∧ t.state = .faulted ∧ (start 253 [] []).state ≠ .faulted) :=
  ⟨by decide, ⟨_, rfl, by decide⟩, ⟨_, rfl, by decide, by decide⟩⟩

theorem witness_RegistersChangedOnlyAsTabled :
    ∃ t, exec (.ldi 3#8 5#8) State.reset = .next t ∧ t.reg 3 ≠ State.reset.reg 3 := ⟨_, rfl, by decide⟩

theorem witness_OnlyPushAndCallWriteMemory :
    ∃ t, cycle defaultOpc (start 0 [0x45, 0x07] []) = .next t ∧ t.byteAt 0xF3 ≠ (start 0 [0x45, 0x07] []).byteAt 0xF3 :=
  ⟨_, rfl, by decide⟩

theorem witness_OnlyPrnEmits :
    (∃ t, cycle defaultOpc (start 253 [0x47, 0x07] []) = .next t) ∧ (start 253 [0x47, 0x07] []).state = .running ∧
      (start 253 [0x47, 0x07] []).Fetchable ∧ (start 253 [0x47, 0x07] []).fetched 0 = defaultOpc.prn ∧
      (start 253 [0x47, 0x07] []).fetched 1 = regByte 7 ∧
      ¬ ((start 253 [0x47, 0x08] []).state = .running ∧ (start 253 [0x47, 0x08] []).Fetchable ∧
        (start 253 [0x47, 0x08] []).fetched 0 = defaultOpc.prn ∧ ((start 253 [0x47, 0x08] []).fetched 1).toNat < 8) :=
  ⟨⟨_, rfl⟩, by decide, by decide, by decide, by decide, by decide⟩

theorem witness_EmittedBytesNeverInfluenceARun :
    ∃ t : State, Host.Core.run Sys2Proof.core 1 (start 0 [0x47, 0x07] []) = .next t ∧ t.out = [0xF4#8] :=
  ⟨_, rfl, by decide⟩

theorem witness_FaultsArePrecise :
    (start 256 [] []).state = .running ∧ ∃ t, cycle defaultOpc (start 256 [] []) = .next t ∧ t.state = .faulted :=
  ⟨by decide, _, rfl, by decide⟩

/-- One state for each row of the table of R183, at the edges: `pc = 256`, the first bad index, `sp` at either end, and
`POP R7` of 255 beside `POP R0` at a full `sp`; and two that complete. -/
theorem witness_FirstErrorOfTheTableIsReported :
    firstError defaultOpc (start 254 [0x01] []) = some (.outOfBounds, 256) ∧
    firstError defaultOpc (start 256 [] []) = some (.outOfBounds, 256) ∧
    firstError defaultOpc (start 253 [0x01, 0xFF, 0xFF] []) = none ∧
    firstError defaultOpc (start 0 [] []) = some (.unknownOpcode, 0) ∧
    firstError defaultOpc (start 0 [0x45, 0x08] [(7, 0)]) = some (.invalidRegister, 8) ∧
    firstError defaultOpc (start 0 [0xA2, 0x07, 0x08] []) = some (.invalidRegister, 8) ∧
    firstError defaultOpc (start 0 [0x50, 0x00] [(7, 0)]) = some (.stackOverflow, 0) ∧
    firstError defaultOpc (start 0 [0x11, 0x09] [(7, 255)]) = some (.stackUnderflow, 255) ∧
    firstError defaultOpc (start 0 [0x46, 0x00] [(7, 255)]) = some (.stackUnderflow, 255) ∧
    firstError defaultOpc (place (start 0 [0x46, 0x07] []) 0xF4 [0xFF]) = some (.stackUnderflow, 255) ∧
    firstError defaultOpc (start 0 [0x46, 0x07] [(7, 255)]) = none := by decide

theorem witness_OutOfBoundsOnlyFromTheFetch :
    (start 254 [0x01] []).state = .running ∧ (start 256 [] []).pc.toNat ≤ 256 ∧
      (∃ t f, cycle defaultOpc (start 254 [0x01] []) = .next t ∧ t.fault = some f ∧ t.state = .faulted ∧
        f.kind = .outOfBounds) ∧
      (start 253 [0x01] []).pc.toNat ≤ 256 ∧ ∃ t, cycle defaultOpc (start 253 [0x01] []) = .next t :=
  ⟨by decide, by decide, ⟨_, _, rfl, rfl, rfl, rfl⟩, by decide, ⟨_, rfl⟩⟩

theorem witness_UnsupportedOperationIsUnreachable :
    (start 0 [] []).state = .running ∧
      ∃ t f, cycle defaultOpc (start 0 [] []) = .next t ∧ t.state = .faulted ∧ t.fault = some f :=
  ⟨by decide, _, _, rfl, rfl, rfl⟩

/-- A faulted state the invariant admits: UnknownOpcode(0x00) at `pc = 0` (V-UNK-1). -/
def faultedAtReset : State := State.reset.withFault .unknownOpcode 0

theorem faultedAtReset_inv : faultedAtReset.Inv defaultOpc where
  mem := by decide
  pc := by decide
  fault := by decide
  fits f h := by cases h; exact ⟨rfl, by decide, rfl, fun op => by cases op <;> decide⟩

theorem witness_FaultRecordIsWrittenOnce :
    faultedAtReset.Inv defaultOpc ∧ (∃ f, faultedAtReset.fault = some f) ∧
      Host.Core.run Sys2Proof.core 1 faultedAtReset = .next faultedAtReset :=
  ⟨faultedAtReset_inv, ⟨_, rfl⟩, rfl⟩

theorem witness_RunStateTransitions :
    (∃ t, cycle defaultOpc { State.reset with state := .halted } = .next t) ∧
      (∃ t, cycle defaultOpc { State.reset with state := .faulted } = .next t) ∧
      (∃ t, cycle defaultOpc (start 253 [0x01] []) = .next t) ∧ (start 253 [0x01] []).state = .running ∧
      (∃ t, cycle defaultOpc (start 256 [] []) = .next t) ∧ (start 256 [] []).state = .running ∧
      (start 256 [] []).pc.toNat ≤ 256 :=
  ⟨⟨_, rfl⟩, ⟨_, rfl⟩, ⟨_, rfl⟩, by decide, ⟨_, rfl⟩, by decide, by decide⟩

theorem witness_TerminalStatesNeverChange :
    ({ State.reset with state := .halted } : State).state = .halted ∧ faultedAtReset.state = .faulted := by decide

theorem witness_LaunchState :
    (List.replicate 256 0x01#8).length ≤ 256 ∧ 256 < (List.replicate 257 0x01#8).length := by
  rw [List.length_replicate, List.length_replicate]; decide

theorem witness_LoadPortThenStartReachesLaunch :
    (List.replicate 256 0x01#8).length ≤ 256 ∧
      Block.atReset.phase = .loading ∧
      ∃ b b' : Block, b.phase = .started ∧ b.core.state = .running ∧ b.input .reset = some b' :=
  ⟨by rw [List.length_replicate], rfl, { Block.atReset with phase := .started }, _, rfl, rfl, rfl⟩


theorem reset_inv_holds (opc : Opc) : State.reset.Inv opc where
  mem := by decide
  pc := by decide
  fault := by decide
  fits f h := by cases h

/-- A halted state the invariant admits: HLT at 0 (V-HLT-1). -/
def haltedAtReset : State := { start 0 [0x01] [] with state := .halted }

theorem haltedAtReset_inv (opc : Opc) : haltedAtReset.Inv opc where
  mem := by decide
  pc := by decide
  fault := by decide
  fits f h := by cases h

theorem witness_StatusPortAgreesWithTheState :
    faultedAtReset.Inv defaultOpc ∧ faultedAtReset.state = .faulted ∧
      haltedAtReset.Inv defaultOpc ∧ haltedAtReset.state = .halted ∧
      State.reset.Inv defaultOpc ∧ State.reset.state = .running :=
  ⟨faultedAtReset_inv, rfl, haltedAtReset_inv _, rfl, reset_inv_holds _, rfl⟩

/-- The condition of each stack error, at its edge, as the invariant's clauses ask for it: V-STK-4, V-RET-3, V-STK-12
and V-STK-10. -/
theorem test_conditions_of_the_stack_errors :
    (start 0 [0x45, 0x00] [(7, 0)]).instrAt defaultOpc = .ok (.push (regByte 0)) ∧
    (start 0 [0x11] [(7, 255)]).instrAt defaultOpc = .ok .ret ∧
    (start 0 [0x46, 0x00] [(7, 255)]).instrAt defaultOpc = .ok (.pop (regByte 0)) ∧
    (start 0 [0x46, 0x07] [(7, 0xF3)]).instrAt defaultOpc = .ok (.pop (regByte spIndex)) := ⟨rfl, rfl, rfl, rfl⟩

/-- Reset in the middle of a run (log entry 13). -/
theorem test_reset_in_mid_run :
    ({ phase := .started, core := start 5 [0x47, 0x00] [] } : Block).input .reset = some Block.atReset := rfl

theorem witness_StepKeepsTheInvariant :
    State.reset.Inv defaultOpc ∧ ∃ t, cycle defaultOpc State.reset = .next t := ⟨reset_inv_holds _, _, rfl⟩

theorem witness_EveryRunFromLaunchIsSafe :
    ∃ s : State, launch [0x01#8] = .ok s ∧
      ∃ t : State, Host.Core.run Sys2Proof.core 1 s = .next t ∧ t.Terminal :=
  ⟨_, rfl, _, rfl, by decide⟩

theorem witness_MemoryContract : (255 : Nat) < 256 ∧ (256 : Nat) ≤ 256 := by decide

theorem witness_CanonicalMemoriesReadingAlikeAreEqual :
    Memory.wf [(0, 1#8), (255, 2#8)] = true ∧ Memory.wf [(256, 1#8)] = false ∧ Memory.wf [(3, 0#8)] = false ∧
      Memory.wf [(3, 1#8), (3, 1#8)] = false := by decide

theorem witness_StoresAreSeenByTheNextFetch :
    (start 0 [0x45, 0x00] [(0, 0x01), (7, 3)]).fetched 0 = defaultOpc.push ∧
      (start 0 [0x45, 0x00] [(0, 0x01), (7, 3)]).fetched 1 = regByte 0 ∧
      (start 0 [0x45, 0x00] [(0, 0x01), (7, 3)]).sp.toNat ≠ 0 ∧
      (start 0 [0x45, 0x00] [(0, 0x01), (7, 3)]).pc.toNat + 2 = pushAddr (start 0 [0x45, 0x00] [(0, 0x01), (7, 3)]) ∧
      (start 253 [0x50, 0x07] [(7, 254)]).fetched 0 = defaultOpc.call ∧
      (start 253 [0x50, 0x07] [(7, 254)]).fetched 1 = regByte 7 ∧
      (regAfterDec (start 253 [0x50, 0x07] [(7, 254)]) 7).toNat ≤ 253 := by decide

theorem witness_PushThenPopRoundTrip :
    (start 251 [0x45, 0x07, 0x46, 0x07] [(7, 1)]).state = .running ∧
      (start 251 [0x45, 0x07, 0x46, 0x07] [(7, 1)]).pc.toNat ≤ 251 ∧
      (start 251 [0x45, 0x07, 0x46, 0x07] [(7, 1)]).sp.toNat ≠ 0 ∧
      (start 251 [0x45, 0x07, 0x46, 0x07] [(7, 1)]).fetched 0 = defaultOpc.push ∧
      (start 251 [0x45, 0x07, 0x46, 0x07] [(7, 1)]).fetched 1 = regByte 7 ∧
      (start 251 [0x45, 0x07, 0x46, 0x07] [(7, 1)]).fetched 2 = defaultOpc.pop ∧
      (start 251 [0x45, 0x07, 0x46, 0x07] [(7, 1)]).fetched 3 = regByte 7 ∧
      pushAddr (start 251 [0x45, 0x07, 0x46, 0x07] [(7, 1)]) ≠ 253 ∧
      pushAddr (start 251 [0x45, 0x07, 0x46, 0x07] [(7, 1)]) ≠ 254 := by decide

theorem witness_CallThenRetResumes :
    (start 253 [] [(7, 1)]).Fetchable ∧ (start 253 [] [(7, 1)]).sp.toNat ≠ 0 ∧
      ∃ t u : State, exec (.call 0#8) (start 253 [] [(7, 1)]) = .next t ∧ u.sp = t.sp ∧
        u.byteAt u.sp.toNat = t.byteAt t.sp.toNat :=
  ⟨by decide, by decide, _, _, rfl, rfl, rfl⟩

end Sys2Proof.Tests
end

/-! ## Where an instruction leaves the program counter (spec/10_state.md R26) -/

namespace Sys2Proof.Machine

/-- The number of bytes an instruction is encoded in depends on its mnemonic alone, not on `OPC` (R85). -/
theorem encode_length (opc : Opc) (i : Instr) : (encode opc i).length = i.op.length := by
  cases i <;> rfl

namespace Effect

variable {s t : State} {i : Instr}

/-- An instruction that enters a fault commits nothing, `pc` included (R180): the effects that complete leave the run
state as it was, or halt. -/
theorem pc_of_faulted (h : Effect s i t) (ht : t.state = .faulted) (hs : s.state ≠ .faulted) : t.pc = s.pc := by
  cases h with
  | badIndex | overflow | underflowPop | underflowRet | hlt => rfl
  | ldi | prn | mul | add | push | pop | call | ret => exact absurd ht hs

/-- An instruction that neither halts nor sets `pc` absolutely advances it by its own length. -/
theorem pc_relative (h : Effect s i t) (hf : s.Fetchable) (ht : t.state ≠ .faulted)
    (hHlt : i ≠ .hlt) (hRet : i ≠ .ret) (hCall : ∀ r, i ≠ .call r) : t.pc.toNat = s.pc.toNat + i.op.length := by
  cases h with
  | badIndex | overflow | underflowPop | underflowRet => exact absurd rfl ht
  | hlt => exact absurd rfl hHlt
  | ret => exact absurd rfl hRet
  | call d => exact absurd rfl (hCall (regByte d))
  | ldi | prn | mul | add | push | pop => exact advance_pc_toNat hf (by decide)

theorem pc_hlt (h : Effect s .hlt t) : t.pc = s.pc := by
  cases h <;> rfl

/-- CALL's target is read after the decrement of `sp` (R160). -/
theorem pc_call {r : Byte} (h : Effect s (.call r) t) (ht : t.state ≠ .faulted) :
    ∃ d : Fin 8, r = regByte d ∧ t.pc = zext9 (regAfterDec s d) := by
  cases h with
  | badIndex | overflow => exact absurd rfl ht
  | call d => exact ⟨d, rfl, rfl⟩

theorem pc_ret (h : Effect s .ret t) (ht : t.state ≠ .faulted) : t.pc = zext9 (s.byteAt s.sp.toNat) := by
  cases h with
  | badIndex | overflow | underflowRet => exact absurd rfl ht
  | ret => rfl

end Effect

/-- Settles O21: every effect of an instruction is one of the relative advances, one of the absolute sets, HLT, or a
fault entry, and each of these says what it does to `pc`. -/
theorem programCounterAfterEachInstruction : Obligations.ProgramCounterAfterEachInstruction := by
  unfold Obligations.ProgramCounterAfterEachInstruction
  intro opc i s t hf hExec
  have hEff : Effect s i t := effect_of_exec hExec
  refine ⟨fun ht => ⟨?_, fun hHlt hRet hCall => ?_⟩, hEff.pc_of_faulted⟩
  · cases i with
    | hlt => exact hEff.pc_hlt
    | call r => exact hEff.pc_call ht
    | ret => exact hEff.pc_ret ht
    | ldi | prn | mul | add | push | pop =>
      exact hEff.pc_relative hf ht Instr.noConfusion Instr.noConfusion (fun _ => Instr.noConfusion)
  · rw [encode_length]
    exact hEff.pc_relative hf ht hHlt hRet hCall

end Sys2Proof.Machine

/-! ## HLT in the engine (spec/40_engine_cycle_hlt.md R110 to R118) -/

namespace Sys2Proof.Machine

/-- HLT's whole effect is the run state (R115); it is the one instruction whose meaning has no `finish`, so it cannot
raise. -/
theorem exec_hlt (s : State) : exec .hlt s = .next { s with state := .halted } := rfl

/-- The test for HLT comes before the opcode map, so no value of `OPC` can shadow it (R112). -/
theorem findOp_opcHlt (opc : Opc) : findOp opc opcHlt = some .hlt := if_pos rfl

/-- HLT uses neither operand byte (R84, R112). -/
theorem decode_opcHlt (opc : Opc) (a b : Byte) : decode opc opcHlt a b = .ok .hlt := by
  unfold decode
  rw [findOp_opcHlt]
  rfl

theorem dispatch_of_decode {opc : Opc} {o a b : Byte} {i : Instr} (s : State) (h : decode opc o a b = .ok i) :
    dispatch opc o a b s = exec i s := by
  unfold dispatch
  rw [h]

theorem cycle_of_fetched_opcHlt (opc : Opc) {s : State} (hr : s.state = .running) (hf : s.Fetchable)
    (hb : s.fetched 0 = opcHlt) : cycle opc s = exec .hlt s := by
  rw [cycle_running opc hr, runCycle_fetchable opc hf, hb]
  exact dispatch_of_decode s (decode_opcHlt opc _ _)

/-- Of what a cycle can do, a running machine whose fetch fails has the fetch fault alone (R110, R118). -/
theorem cycle_of_not_fetchable (opc : Opc) {s : State} (hr : s.state = .running) (hf : ¬ s.Fetchable) :
    ∃ n, cycle opc s = .next (s.withFault .outOfBounds n) := by
  obtain ⟨hTerm, -⟩ | ⟨-, -, n, hn, -⟩ | ⟨-, hf', -⟩ | ⟨-, hf', -⟩ := cycle_cases opc s
  · exact absurd hr hTerm
  · exact ⟨n, hn⟩
  · exact absurd hf' hf
  · exact absurd hf' hf

/-- Settles O11: the next state is the old one with its run state alone replaced. -/
theorem hltHaltsAndChangesNothingElse : Obligations.HltHaltsAndChangesNothingElse := by
  unfold Obligations.HltHaltsAndChangesNothingElse
  intro s
  have hRegs : SameRegsBut [] s { s with state := .halted } := fun j _ => reg_of_x_eq rfl j
  have hMem : SameMemory s { s with state := .halted } := fun _ => rfl
  exact ⟨_, exec_hlt s, rfl, rfl, hRegs, hMem, rfl, rfl⟩

/-- Settles O9: where the fetch succeeds the cycle is HLT's meaning, which O11 describes; where it does not, the fetch
faults before the opcode byte is tested. -/
theorem hltByteHaltsWhateverFollows : Obligations.HltByteHaltsWhateverFollows := by
  unfold Obligations.HltByteHaltsWhateverFollows
  intro opc s hr hb
  refine ⟨fun hf => ?_, fun hf => ?_⟩
  · rw [cycle_of_fetched_opcHlt opc hr hf hb]
    exact hltHaltsAndChangesNothingElse s
  · obtain ⟨n, hn⟩ := cycle_of_not_fetchable opc hr hf
    exact ⟨_, hn, withFault_state s .outOfBounds n⟩

end Sys2Proof.Machine

/-! ## LDI and PRN (spec/41_load_immediate_print.md R130, R131) -/

namespace Sys2Proof.Machine

/-- The counterpart of `finish_checkReg_bad`: a byte that names a register passes the check, and the rest of the
instruction decides. -/
theorem finish_checkReg_regByte (s : State) (d : Fin 8) (f : Fin 8 → Attempt State) :
    finish s (checkReg (regByte d) >>= f) = finish s (f d) := by
  rw [checkReg_regByte, ok_bind]

theorem exec_ldi_regByte (s : State) (d : Fin 8) (imm : Byte) :
    exec (.ldi (regByte d) imm) s = .next ((s.setReg d imm).advance 3) :=
  finish_checkReg_regByte s d _

theorem exec_ldi_bad (s : State) {r : Byte} (imm : Byte) (h : 8 ≤ r.toNat) :
    exec (.ldi r imm) s = .next (s.withFault .invalidRegister r.toNat) :=
  finish_checkReg_bad s _ h

theorem exec_prn_regByte (s : State) (d : Fin 8) :
    exec (.prn (regByte d)) s = .next ((s.emit (s.reg d)).advance 2) :=
  finish_checkReg_regByte s d _

theorem exec_prn_bad (s : State) {r : Byte} (h : 8 ≤ r.toNat) :
    exec (.prn r) s = .next (s.withFault .invalidRegister r.toNat) :=
  finish_checkReg_bad s _ h

/-- A register write touches its own register alone, the stack pointer included (R21, R23). -/
theorem sameRegsBut_setReg (s : State) (d : Fin 8) (v : Byte) : SameRegsBut [d] s (s.setReg d v) :=
  fun _ hj => reg_setReg_ne s v (List.ne_of_not_mem_cons hj)

/-- Settles O12: with a register's byte LDI is one register write and the advance, each with its own frame; any other
byte fails the check before anything is written. -/
theorem ldiLoadsTheImmediate : Obligations.LdiLoadsTheImmediate := by
  unfold Obligations.LdiLoadsTheImmediate
  intro s imm hf
  refine ⟨fun d => ?_, fun r hr => exec_ldi_bad s imm hr⟩
  have hReg : ((s.setReg d imm).advance 3).reg d = imm := reg_setReg_self s d imm
  have hRegs : SameRegsBut [d] s ((s.setReg d imm).advance 3) := sameRegsBut_setReg s d imm
  have hPc : ((s.setReg d imm).advance 3).pc.toNat = s.pc.toNat + 3 := advance_pc_toNat hf (by decide)
  have hMem : SameMemory s ((s.setReg d imm).advance 3) := fun _ => rfl
  exact ⟨_, exec_ldi_regByte s d imm, hReg, hRegs, hPc, hMem, rfl, rfl, rfl⟩

/-- Settles O13: with a register's byte PRN is one emission, at the end of the output, and the advance; any other byte
fails the check before anything is emitted. -/
theorem prnEmitsTheRegister : Obligations.PrnEmitsTheRegister := by
  unfold Obligations.PrnEmitsTheRegister
  intro s hf
  refine ⟨fun d => ?_, fun r hr => exec_prn_bad s hr⟩
  have hRegs : SameRegsBut [] s ((s.emit (s.reg d)).advance 2) := fun _ _ => rfl
  have hPc : ((s.emit (s.reg d)).advance 2).pc.toNat = s.pc.toNat + 2 := advance_pc_toNat hf (by decide)
  have hMem : SameMemory s ((s.emit (s.reg d)).advance 2) := fun _ => rfl
  exact ⟨_, exec_prn_regByte s d, rfl, hRegs, hPc, hMem, rfl, rfl⟩

end Sys2Proof.Machine

/-! ## MUL and ADD (spec/42_alu_mul_add.md R140 to R142) -/

namespace Sys2Proof.Machine

theorem exec_mul (ra rb : Byte) (s : State) : exec (.mul ra rb) s = finish s (aluApply .mul ra rb s) := rfl

theorem exec_add (ra rb : Byte) (s : State) : exec (.add ra rb) s = finish s (aluApply .add ra rb s) := rfl

/-- With two registers' bytes the ALU instruction reads both old values before its one write, so `a = b` is no case of
its own. -/
theorem finish_aluApply_regByte (op : AluOp) (a b : Fin 8) (s : State) :
    finish s (aluApply op (regByte a) (regByte b) s) =
      .next ((s.setReg a (alu op (s.reg a) (s.reg b))).advance 3) := by
  unfold aluApply
  rw [finish_checkReg_regByte, finish_checkReg_regByte, finish_ok]

/-- Operand a is checked first, whatever operand b is. -/
theorem finish_aluApply_bad_a (op : AluOp) {ra : Byte} (rb : Byte) (s : State) (h : 8 ≤ ra.toNat) :
    finish s (aluApply op ra rb s) = .next (s.withFault .invalidRegister ra.toNat) :=
  finish_checkReg_bad s _ h

/-- Operand b is checked once operand a has passed, and before the write. -/
theorem finish_aluApply_bad_b (op : AluOp) (a : Fin 8) {rb : Byte} (s : State) (h : 8 ≤ rb.toNat) :
    finish s (aluApply op (regByte a) rb s) = .next (s.withFault .invalidRegister rb.toNat) := by
  unfold aluApply
  rw [finish_checkReg_regByte, finish_checkReg_bad s _ h]

/-- What MUL and ADD have in common, the operation left open: the destination gets the exact result modulo 256 (R140),
`pc` advances by 3, and the rest is kept. -/
theorem aluApply_writes_destination (op : AluOp) {s : State} (hf : s.Fetchable) (a b : Fin 8) :
    ∃ t, finish s (aluApply op (regByte a) (regByte b) s) = .next t ∧
      (t.reg a).toNat = aluExact op (s.reg a) (s.reg b) % 256 ∧ SameRegsBut [a] s t ∧
      t.pc.toNat = s.pc.toNat + 3 ∧ SameMemory s t ∧ t.out = s.out ∧ SameStatus s t := by
  have hRegs : SameRegsBut [a] s (s.setReg a (alu op (s.reg a) (s.reg b))) := sameRegsBut_setReg s a _
  refine ⟨_, finish_aluApply_regByte op a b s, ?result, hRegs, ?pc, fun _ => rfl, rfl, rfl, rfl⟩
  case result => rw [reg_advance, reg_setReg_self, alu_toNat]
  case pc => exact advance_pc_toNat (s := s.setReg a _) hf (by decide)

/-- Settles O14: MUL is the ALU instruction whose exact result is the product. -/
theorem mulWritesTheLowByteOfTheProduct : Obligations.MulWritesTheLowByteOfTheProduct := by
  unfold Obligations.MulWritesTheLowByteOfTheProduct
  intro s hf
  simp only [exec_mul]
  exact ⟨aluApply_writes_destination .mul hf, fun _ rb h => finish_aluApply_bad_a .mul rb s h,
    fun a _ h => finish_aluApply_bad_b .mul a s h⟩

/-- Settles O15: ADD is the ALU instruction whose exact result is the sum. -/
theorem addWritesTheSumModulo256 : Obligations.AddWritesTheSumModulo256 := by
  unfold Obligations.AddWritesTheSumModulo256
  intro s hf
  simp only [exec_add]
  exact ⟨aluApply_writes_destination .add hf, fun _ rb h => finish_aluApply_bad_a .add rb s h,
    fun a _ h => finish_aluApply_bad_b .add a s h⟩

end Sys2Proof.Machine

/-! ## CALL and RET (spec/44_subroutine_call_ret.md R160 to R162) -/

namespace Sys2Proof.Machine

/-- A push moves the stack pointer and no other register. -/
theorem sameRegsBut_pushed (s : State) (v : Byte) : SameRegsBut [spIndex] s (pushed s v) :=
  sameRegsBut_setReg s spIndex (s.sp - 1#8)

/-- A push stores at its own address and nowhere else. -/
theorem sameMemoryBut_pushed (s : State) (v : Byte) : SameMemoryBut (pushAddr s) s (pushed s v) :=
  fun a ha => (pushed_byteAt s v a).trans (if_neg ha)

theorem byteAt_pushAddr_pushed (s : State) (v : Byte) : (pushed s v).byteAt (pushAddr s) = v :=
  (pushed_byteAt s v _).trans (if_pos rfl)

/-- Above 0 a push completes, whatever byte it stores. -/
theorem pushByte_pos (byte : State → Byte) {s : State} (h : s.sp.toNat ≠ 0) :
    pushByte byte s = .ok (pushed s (byte (s.setSp (s.sp - 1#8)))) :=
  ((pushByte_cases byte s).resolve_left fun h0 => h h0.1).2

theorem pushByte_zero (byte : State → Byte) {s : State} (h : s.sp.toNat = 0) :
    pushByte byte s = .error ⟨.stackOverflow, 0#9⟩ :=
  ((pushByte_cases byte s).resolve_right fun h0 => h0.1 h).2

theorem exec_call_regByte {s : State} (d : Fin 8) (h : s.sp.toNat ≠ 0) :
    exec (.call (regByte d)) s = .next ((pushed s (returnAddress s)).jump (regAfterDec s d)) :=
  (finish_checkReg_regByte s d _).trans (by rw [pushByte_pos _ h, ok_bind, finish_ok, pushed_reg])

theorem exec_call_overflow {s : State} (d : Fin 8) (h : s.sp.toNat = 0) :
    exec (.call (regByte d)) s = .next (s.withFault .stackOverflow 0) :=
  (finish_checkReg_regByte s d _).trans (by rw [pushByte_zero _ h, error_bind, finish_error, raise_eq_withFault])

theorem exec_call_bad (s : State) {r : Byte} (h : 8 ≤ r.toNat) :
    exec (.call r) s = .next (s.withFault .invalidRegister r.toNat) :=
  finish_checkReg_bad s _ h

theorem exec_ret_lt {s : State} (h : s.sp.toNat ≠ 255) :
    exec .ret s = .next ((s.setSp (s.sp + 1#8)).jump (s.byteAt s.sp.toNat)) :=
  ((execRet_cases s).resolve_left fun h' => h h'.1).2

theorem exec_ret_underflow {s : State} (h : s.sp.toNat = 255) :
    exec .ret s = .next (s.withFault .stackUnderflow 255) :=
  ((execRet_cases s).resolve_right fun h' => h'.1 h).2

/-- Settles O18: CALL is a push of the return address, which fits a byte because the fetch succeeded, and then a jump;
the register check and the decrement fail before anything is written. -/
theorem callPushesTheReturnAddressAndJumps : Obligations.CallPushesTheReturnAddressAndJumps := by
  unfold Obligations.CallPushesTheReturnAddressAndJumps
  intro s hf
  refine ⟨fun d h => ?_, fun d h => exec_call_overflow d h, fun r h => exec_call_bad s h⟩
  have hRegs : SameRegsBut [spIndex] s (pushed s (returnAddress s)) := sameRegsBut_pushed s _
  have hMem : SameMemoryBut (pushAddr s) s (pushed s (returnAddress s)) := sameMemoryBut_pushed s _
  refine ⟨_, exec_call_regByte d h, pushAddr_succ h, ?sp, hRegs, ?stored, hMem, ?pc, rfl, rfl, rfl⟩
  case sp => rw [sp_jump, pushed_sp, pushAddr]
  case stored => rw [byteAt_jump, byteAt_pushAddr_pushed, returnAddress_toNat hf]
  case pc => rw [jump_pc, zext9_toNat]

/-- Settles O19: RET is one step of the stack pointer and a jump to the byte read before it. -/
theorem retPopsTheProgramCounter : Obligations.RetPopsTheProgramCounter := by
  unfold Obligations.RetPopsTheProgramCounter
  intro s
  refine ⟨fun h => ?_, exec_ret_underflow⟩
  have hSp : ((s.setSp (s.sp + 1#8)).jump (s.byteAt s.sp.toNat)).sp.toNat = s.sp.toNat + 1 := by
    rw [sp_jump, sp_setSp, succ_sp_toNat h]
  have hRegs : SameRegsBut [spIndex] s (s.setSp (s.sp + 1#8)) := sameRegsBut_setReg s spIndex _
  exact ⟨_, exec_ret_lt h, zext9_toNat (s.byteAt s.sp.toNat), hSp, hRegs, fun _ => rfl, rfl, rfl, rfl⟩

/-- Settles O47: the CALL is described by O18. It leaves the stack pointer one below a byte, so not at 255, and the RET
in the later state pops by O19. -/
theorem callThenRetResumes : Obligations.CallThenRetResumes := by
  unfold Obligations.CallThenRetResumes
  intro s d hf h
  obtain ⟨hCall, -, -⟩ := callPushesTheReturnAddressAndJumps s hf
  obtain ⟨t, ht, hAddr, hSp, -, hTop, -, hPc, -⟩ := hCall d h
  have hBelow : t.sp.toNat + 1 = s.sp.toNat := by rw [hSp, hAddr]
  rw [← hSp] at hTop
  refine ⟨t, ht, hPc, hBelow, hTop, fun u hu hByte => ?_⟩
  have hRoom : u.sp.toNat ≠ 255 := by
    have := s.sp.isLt
    rw [hu]; omega
  obtain ⟨hRet, -⟩ := retPopsTheProgramCounter u
  obtain ⟨v, hv, hvPc, hvSp, -⟩ := hRet hRoom
  exact ⟨v, hv, by rw [hvPc, hByte, hTop], BitVec.eq_of_toNat_eq (by rw [hvSp, hu, hBelow])⟩

end Sys2Proof.Machine

/-! ## UnknownOpcode and InvalidRegister (spec/60_exceptions.md R172, R173) -/

namespace Sys2Proof.Machine

/-- A byte the map does not hold raises UnknownOpcode with itself, before any operand is looked at (R113, R173). -/
theorem dispatch_of_findOp_eq_none {opc : Opc} {o : Byte} (a b : Byte) (s : State) (h : findOp opc o = none) :
    dispatch opc o a b s = .next (s.withFault .unknownOpcode o.toNat) := by
  unfold dispatch decode
  rw [h, ← raise_eq_withFault, ← zext9_eq_ofNat]
  rfl

/-- Settles O10: a byte of no mnemonic is not in the map, so the dispatch of the fetched triple raises. -/
theorem unknownOpcodeFaults : Obligations.UnknownOpcodeFaults := by
  unfold Obligations.UnknownOpcodeFaults
  intro opc s hr hf hNone
  rw [cycle_running opc hr, runCycle_fetchable opc hf]
  exact dispatch_of_findOp_eq_none _ _ s (findOp_eq_none.mpr hNone)

/-- The two ways the statements say that no register operand is bad. -/
theorem wellFormed_iff_find_bad_eq_none (i : Instr) :
    i.wellFormed = true ↔ i.regOperands.find? (fun q => !isRegIndex q) = none := by
  simp [Instr.wellFormed]

namespace Effect

variable {s t : State} {i : Instr}

/-- Every effect but the fault of a bad register byte presupposes that all register operands passed their checks. -/
theorem wellFormed_or_badIndex (h : Effect s i t) :
    i.wellFormed = true ∨ ∃ r, i.regOperands.find? (fun q => !isRegIndex q) = some r ∧
      t = s.withFault .invalidRegister r.toNat := by
  cases h with
  | badIndex _ r hr => exact .inr ⟨r, hr, rfl⟩
  | overflow _ d hi => left; obtain rfl | rfl := hi <;> simp [Instr.wellFormed, Instr.regOperands, isRegIndex_regByte]
  | hlt | ret | underflowRet => exact .inl rfl
  | underflowPop | ldi | prn | mul | add | push | pop | call =>
    left; simp [Instr.wellFormed, Instr.regOperands, isRegIndex_regByte]

/-- A bad register byte leaves an instruction no effect but its fault, whatever else is wrong (R172). -/
theorem eq_withFault_of_find_bad {r : Byte} (h : Effect s i t)
    (hr : i.regOperands.find? (fun q => !isRegIndex q) = some r) : t = s.withFault .invalidRegister r.toNat := by
  obtain hw | ⟨r', hr', ht⟩ := h.wellFormed_or_badIndex
  · rw [(wellFormed_iff_find_bad_eq_none i).mp hw] at hr; cases hr
  · cases hr'.symm.trans hr; exact ht

/-- Of a well-formed instruction's effects the only fault entries are those of the stack, and every other effect keeps
the record it found. -/
theorem kind_ne_invalidRegister {f : FaultRecord} (h : Effect s i t) (hw : i.wellFormed = true)
    (hf : t.fault = some f) (hs : s.fault = none) : f.kind ≠ .invalidRegister := by
  cases h with
  | badIndex _ r hr => rw [(wellFormed_iff_find_bad_eq_none i).mp hw] at hr; cases hr
  | overflow | underflowPop | underflowRet => cases hf; exact ErrorKind.noConfusion
  | hlt | ldi | prn | mul | add | push | pop | call | ret => cases hs.symm.trans hf

end Effect

/-- Settles O20: the meaning answers one of the instruction's effects; with a bad register byte that is its fault, and
without one it is no fault of this kind. -/
theorem invalidRegisterExactlyForBadIndices : Obligations.InvalidRegisterExactlyForBadIndices := by
  unfold Obligations.InvalidRegisterExactlyForBadIndices
  intro i s
  refine ⟨fun r hr => ?_, fun hw t f hExec hf hs => (effect_of_exec hExec).kind_ne_invalidRegister hw hf hs⟩
  obtain ⟨t, hExec, hEff⟩ := exec_answers i s
  rw [hExec, hEff.eq_withFault_of_find_bad hr]

end Sys2Proof.Machine

/-! ## Encoding and decoding (spec/30_encoding.md R80 to R93) -/

namespace Sys2Proof

theorem operandBytes_length (i : Instr) : i.operandBytes.length = i.op.length - 1 := by
  cases i <;> rfl

/-- A mnemonic remakes its instruction from the operand bytes, whatever bytes follow them (R84). -/
theorem withOperands_operandBytes_append (i : Instr) (rest : List Byte) :
    i.op.withOperands ((i.operandBytes ++ rest).getD 0 0) ((i.operandBytes ++ rest).getD 1 0) = i := by
  cases i <;> rfl

/-- The operand bytes of what a mnemonic makes of a list are the bytes its format takes from that list. -/
theorem operandBytes_withOperands {op : Op} {bytes : List Byte} (h : op.length ≤ bytes.length + 1) :
    (op.withOperands (bytes.getD 0 0) (bytes.getD 1 0)).operandBytes = bytes.take (op.length - 1) := by
  match op, bytes with
  | .hlt, _ | .ret, _ => rfl
  | .prn, a :: _ | .push, a :: _ | .pop, a :: _ | .call, a :: _ => rfl
  | .mul, a :: b :: _ | .add, a :: b :: _ | .ldi, a :: b :: _ => rfl

/-- A byte of the map, followed by enough bytes, is decoded (R85, R88). -/
theorem decodeBytes_cons {opc : Opc} {o : Byte} {op : Op} {bytes : List Byte} (hOp : findOp opc o = some op)
    (h : op.length ≤ bytes.length + 1) :
    decodeBytes opc (o :: bytes) =
      .ok (op.withOperands (bytes.getD 0 0) (bytes.getD 1 0), bytes.drop (op.length - 1)) := by
  unfold decodeBytes
  simp only [hOp, if_neg (Nat.not_lt.mpr h)]

/-- The inversion of `decodeBytes`: only a byte of the map, followed by enough bytes, is decoded. -/
theorem decodeBytes_ok {opc : Opc} {bytes rest : List Byte} {i : Instr} (h : decodeBytes opc bytes = .ok (i, rest)) :
    ∃ o op tail, bytes = o :: tail ∧ findOp opc o = some op ∧ op.length ≤ tail.length + 1 ∧
      i = op.withOperands (tail.getD 0 0) (tail.getD 1 0) ∧ rest = tail.drop (op.length - 1) := by
  cases bytes with
  | nil => cases h
  | cons o tail =>
    cases hOp : findOp opc o with
    | none => simp [decodeBytes, hOp] at h
    | some op =>
      by_cases hLen : op.length ≤ tail.length + 1
      · rw [decodeBytes_cons hOp hLen] at h
        cases h
        exact ⟨o, op, tail, rfl, hOp, hLen, rfl, rfl⟩
      · simp [decodeBytes, hOp, Nat.not_le.mp hLen] at h

/-- Settles O2: a valid `OPC` finds the mnemonic by its byte, and the mnemonic takes back exactly its operand bytes. -/
theorem decodeOfEncodeIsIdentity : Obligations.DecodeOfEncodeIsIdentity := by
  unfold Obligations.DecodeOfEncodeIsIdentity
  intro opc hv i rest
  have hOperands : i.operandBytes.length = i.op.length - 1 := operandBytes_length i
  have hLen : i.op.length ≤ (i.operandBytes ++ rest).length + 1 := by
    rw [List.length_append]; omega
  have hDrop : (i.operandBytes ++ rest).drop (i.op.length - 1) = rest := by
    rw [← hOperands, List.drop_left]
  unfold encode
  rw [List.cons_append, decodeBytes_cons (findOp_opcodeByte hv i.op) hLen, withOperands_operandBytes_append, hDrop]

/-- Settles O3: the byte found is the mnemonic's, and what the mnemonic takes and what it leaves are the list. -/
theorem decodedBytesAreTheEncoding : Obligations.DecodedBytesAreTheEncoding := by
  unfold Obligations.DecodedBytesAreTheEncoding
  intro opc bytes rest i h
  obtain ⟨o, op, tail, rfl, hOp, hLen, rfl, rfl⟩ := decodeBytes_ok h
  unfold encode
  rw [withOperands_op, opcodeByte_of_findOp hOp, operandBytes_withOperands hLen, List.cons_append,
    List.take_append_drop]

theorem decode_of_findOp {opc : Opc} {o : Byte} {op : Op} (a b : Byte) (h : findOp opc o = some op) :
    decode opc o a b = .ok (op.withOperands a b) := by
  unfold decode; rw [h]

theorem decode_of_findOp_eq_none {opc : Opc} {o : Byte} (a b : Byte) (h : findOp opc o = none) :
    decode opc o a b = .error (.unknownOpcode o) := by
  unfold decode; rw [h]

/-- Settles O4: decoding fails exactly where the map finds nothing, and then names the byte. -/
theorem decodeRejectsExactlyBytesOutsideTheMap : Obligations.DecodeRejectsExactlyBytesOutsideTheMap := by
  unfold Obligations.DecodeRejectsExactlyBytesOutsideTheMap
  refine ⟨fun opc o a b => ?_, fun opc o a b e h => ?_, fun a b => decode_of_findOp_eq_none a b (by decide)⟩
  · rw [← findOp_eq_none]
    refine ⟨fun h => ?_, decode_of_findOp_eq_none a b⟩
    cases hOp : findOp opc o with
    | none => rfl
    | some op => rw [decode_of_findOp a b hOp] at h; cases h
  · cases hOp : findOp opc o with
    | none => rw [decode_of_findOp_eq_none a b hOp] at h; exact (Except.error.inj h).symm
    | some op => rw [decode_of_findOp a b hOp] at h; cases h

/-- Settles O1: six closed words. -/
theorem defaultWordsDecode : Obligations.DefaultWordsDecode := by
  unfold Obligations.DefaultWordsDecode
  decide

/-- A mnemonic's instructions agree exactly when the operand bytes its format uses do (R84). -/
theorem withOperands_eq_iff (op : Op) (a b a' b' : Byte) :
    op.withOperands a b = op.withOperands a' b' ↔ (2 ≤ op.length → a = a') ∧ (3 ≤ op.length → b = b') := by
  cases op <;> simp [Op.withOperands, Op.length, Op.format, Format.length]

/-- Settles O5: a byte of the map decodes to what its mnemonic makes of the operand bytes. -/
theorem decodeReadsExactlyTheUsedOperandBytes : Obligations.DecodeReadsExactlyTheUsedOperandBytes := by
  unfold Obligations.DecodeReadsExactlyTheUsedOperandBytes
  intro opc o a b a' b' op hOp
  rw [decode_of_findOp a b hOp, decode_of_findOp a' b' hOp, Except.ok.injEq]
  exact withOperands_eq_iff op a b a' b'

end Sys2Proof

/-! ## The fetch and what one cycle can do (spec/40_engine_cycle_hlt.md R110 to R118) -/

namespace Sys2Proof.Machine

/-- Where one of the three reads has no cell, the first such read raises its own address, not reduced (R110). -/
theorem fetch_top {s : State} (h : 254 ≤ s.pc.toNat) :
    fetch s = .error ⟨.outOfBounds, BitVec.ofNat 9 (max 256 s.pc.toNat)⟩ := by
  unfold fetch
  by_cases h0 : 256 ≤ s.pc.toNat
  · rw [memRead_ge s h0, error_bind, Nat.max_eq_right h0]
  · rw [memRead_ok s (by omega), ok_bind, Nat.max_eq_left (by omega)]
    by_cases h1 : s.pc.toNat = 255
    · rw [h1, memRead_ge s (by decide), error_bind]
    · have h2 : s.pc.toNat + 2 = 256 := by omega
      rw [memRead_ok s (by omega), ok_bind, h2, memRead_ge s (by decide), error_bind]

theorem cycle_of_fetch_top (opc : Opc) {s : State} (hr : s.state = .running) (h : 254 ≤ s.pc.toNat) :
    cycle opc s = .next (s.withFault .outOfBounds (max 256 s.pc.toNat)) := by
  rw [cycle_running opc hr]
  unfold runCycle
  rw [fetch_top h, ← raise_eq_withFault]
  rfl

/-- Settles O8: the two ranges of `pc` are those of `fetch_ok` and `fetch_top`. -/
theorem fetchReadsThreeCellsOrFaultsAtTheTop : Obligations.FetchReadsThreeCellsOrFaultsAtTheTop := by
  unfold Obligations.FetchReadsThreeCellsOrFaultsAtTheTop
  exact fun opc s => ⟨fetch_ok, fun h => ⟨fetch_top h, fun hr => cycle_of_fetch_top opc hr h⟩⟩

/-- The bytes at `pc` are an instruction exactly when the map holds the first of them (R113). -/
theorem instrAt_ok_iff {opc : Opc} {s : State} {i : Instr} :
    s.instrAt opc = .ok i ↔
      ∃ op, findOp opc (s.fetched 0) = some op ∧ op.withOperands (s.fetched 1) (s.fetched 2) = i := by
  unfold State.instrAt
  cases hOp : findOp opc (s.fetched 0) with
  | none => rw [decode_of_findOp_eq_none _ _ hOp]; simp
  | some op => rw [decode_of_findOp _ _ hOp]; simp

theorem fetched_of_instrAt {opc : Opc} {s : State} {i : Instr} (h : s.instrAt opc = .ok i) :
    s.fetched 0 = opcodeByte opc i.op := by
  obtain ⟨op, hOp, rfl⟩ := instrAt_ok_iff.mp h
  rw [withOperands_op, opcodeByte_of_findOp hOp]

theorem instrAt_of_opcode {opc : Opc} (hv : validOpc opc) {s : State} {op : Op}
    (h : s.fetched 0 = opcodeByte opc op) :
    s.instrAt opc = .ok (op.withOperands (s.fetched 1) (s.fetched 2)) :=
  instrAt_ok_iff.mpr ⟨op, by rw [h, findOp_opcodeByte hv], rfl⟩

theorem cycle_of_instrAt {opc : Opc} {s : State} {i : Instr} (hr : s.state = .running) (hf : s.Fetchable)
    (h : s.instrAt opc = .ok i) : cycle opc s = exec i s := by
  rw [cycle_running opc hr, runCycle_fetchable opc hf]
  exact dispatch_of_decode s h

/-- Settles O6: a step is a cycle under the default opcode bytes. -/
theorem stepRunsTheDecodedInstruction : Obligations.StepRunsTheDecodedInstruction := by
  unfold Obligations.StepRunsTheDecodedInstruction
  exact fun s i hr hf h => cycle_of_instrAt hr hf h

/-- Everything a cycle can do: nothing in a terminal state, the two faults of the engine, or an effect of the
instruction at `pc`. -/
inductive CycleEffect (opc : Opc) (s : State) : State → Prop
  | idle (h : s.Terminal) : CycleEffect opc s s
  | fetchFault (hr : s.state = .running) (h : 254 ≤ s.pc.toNat) :
      CycleEffect opc s (s.withFault .outOfBounds (max 256 s.pc.toNat))
  | unknownOpcode (hr : s.state = .running) (hf : s.Fetchable) (h : findOp opc (s.fetched 0) = none) :
      CycleEffect opc s (s.withFault .unknownOpcode (s.fetched 0).toNat)
  | instr (hr : s.state = .running) (hf : s.Fetchable) (i : Instr) (hi : s.instrAt opc = .ok i) (t : State)
      (h : Effect s i t) : CycleEffect opc s t

/-- The inversion of `cycle`. -/
theorem cycleEffect_of_cycle {opc : Opc} {s t : State} (h : cycle opc s = .next t) : CycleEffect opc s t := by
  obtain ⟨hT, e⟩ | ⟨hr, hf, -⟩ | ⟨hr, hf, hOp, e⟩ | ⟨hr, hf, op, hOp, e⟩ := cycle_cases opc s
  · cases e.symm.trans h; exact .idle hT
  · have hTop : 254 ≤ s.pc.toNat := Nat.lt_of_not_le hf
    cases (cycle_of_fetch_top opc hr hTop).symm.trans h
    exact .fetchFault hr hTop
  · cases e.symm.trans h; exact .unknownOpcode hr hf hOp
  · exact .instr hr hf _ (instrAt_ok_iff.mpr ⟨op, hOp, rfl⟩) t (effect_of_exec (e.symm.trans h))

end Sys2Proof.Machine

/-! ## The invariant (spec/10_state.md sections 3 to 5, spec/60_exceptions.md) -/

namespace Sys2Proof.Machine

namespace Effect

variable {s t : State} {i : Instr}

theorem mem_wf (h : Effect s i t) (hs : Memory.wf s.mem = true) : Memory.wf t.mem = true := by
  cases h with
  | push d | call d => exact wf_write _ hs (pushAddr_lt s)
  | badIndex | overflow | underflowPop | underflowRet | hlt | ldi | prn | mul | add | pop | ret => exact hs

/-- The relative advances stay within 256 where the fetch succeeded, and a byte is a smaller address still (R27). -/
theorem pc_le (h : Effect s i t) (hf : s.Fetchable) : t.pc.toNat ≤ 256 := by
  have hAdvance : ∀ n ≤ 3, (s.advance n).pc.toNat ≤ 256 := fun n hn => by
    rw [advance_pc_toNat hf hn]; exact Nat.add_le_add hf hn
  have hByte : ∀ v : Byte, (zext9 v).toNat ≤ 256 := fun v => by
    rw [zext9_toNat]; exact v.isLt.le
  cases h with
  | badIndex | overflow | underflowPop | underflowRet | hlt => exact hf.trans (by decide)
  | ldi | mul | add => exact hAdvance 3 (by decide)
  | prn | push | pop => exact hAdvance 2 (by decide)
  | call | ret => exact hByte _

/-- Of a running machine's instruction the effects that enter a fault record it, and the others keep the empty record.
-/
theorem fault_isSome_iff (h : Effect s i t) (hr : s.state = .running) (hs : s.fault = none) :
    t.fault.isSome ↔ t.state = .faulted := by
  cases h with
  | badIndex | overflow | underflowPop | underflowRet => simp
  | hlt => simp [hs]
  | ldi | prn | mul | add | push | pop | call | ret => simp [hr, hs]

/-- A fault is entered with the condition that raises it, and the entry leaves that condition in place (R180). -/
theorem fits {opc : Opc} {f : FaultRecord} (h : Effect s i t) (hf : s.Fetchable) (hi : s.instrAt opc = .ok i)
    (hs : s.fault = none) (ht : t.fault = some f) : f.Fits opc t := by
  cases h with
  | badIndex _ r hr => cases ht; exact ⟨rfl, hf, i, r, hi, hr, (zext9_eq_ofNat r).symm⟩
  | overflow _ d hd hSp =>
    cases ht
    exact ⟨rfl, hf, rfl, hSp, d, hd.imp (fun e => hi.trans (congrArg _ e)) (fun e => hi.trans (congrArg _ e))⟩
  | underflowPop d hv => cases ht; exact ⟨rfl, hf, rfl, .inr ⟨d, hi, hv⟩⟩
  | underflowRet hSp => cases ht; exact ⟨rfl, hf, rfl, .inl ⟨hi, hSp⟩⟩
  | hlt | ldi | prn | mul | add | push | pop | call | ret => cases hs.symm.trans ht

end Effect

namespace State.Inv

variable {opc : Opc} {s : State}

theorem fault_eq_none (h : s.Inv opc) (hs : s.state ≠ .faulted) : s.fault = none :=
  Option.not_isSome_iff_eq_none.mp fun hf => hs (h.fault.mp hf)

/-- A fault entry keeps the invariant where its record fits. -/
theorem withFault {k : ErrorKind} {n : Nat} (h : s.Inv opc)
    (hf : FaultRecord.Fits opc { kind := k, pc := s.pc, info := BitVec.ofNat 9 n } (s.withFault k n)) :
    (s.withFault k n).Inv opc where
  mem := h.mem
  pc := h.pc
  fault := by simp
  fits f e := by cases e; exact hf

theorem effect {t : State} {i : Instr} (h : s.Inv opc) (hr : s.state = .running) (hf : s.Fetchable)
    (hi : s.instrAt opc = .ok i) (hEff : Effect s i t) : t.Inv opc :=
  have hNone : s.fault = none := h.fault_eq_none (by rw [hr]; decide)
  { mem := hEff.mem_wf h.mem
    pc := hEff.pc_le hf
    fault := hEff.fault_isSome_iff hr hNone
    fits := fun _ => hEff.fits hf hi hNone }

end State.Inv

/-- Settles O41: each thing a cycle can do keeps the invariant; a fetch fault fits because `pc` was at most 256, so
that the first missing address is 256. -/
theorem stepKeepsTheInvariant : Obligations.StepKeepsTheInvariant := by
  unfold Obligations.StepKeepsTheInvariant
  intro opc s t hInv h
  cases cycleEffect_of_cycle h with
  | idle => exact hInv
  | fetchFault hr hTop =>
    have hInfo : max 256 s.pc.toNat = 256 := Nat.max_eq_left hInv.pc
    rw [hInfo]
    exact hInv.withFault ⟨rfl, rfl, hTop⟩
  | unknownOpcode hr hf hOp =>
    exact hInv.withFault ⟨rfl, hf, (zext9_eq_ofNat _).symm, findOp_eq_none.mp hOp⟩
  | instr hr hf i hi _ hEff => exact hInv.effect hr hf hi hEff

end Sys2Proof.Machine

/-! ## Errors and their priorities (spec/60_exceptions.md R170 to R183) -/

namespace Sys2Proof.Machine

/-- Row 6 of R183, the errors of the stack pointer, for an instruction whose register operands are legal. -/
def stackError (s : State) : Instr → Option (ErrorKind × Nat)
  | .push _ | .call _ => if s.sp.toNat = 0 then some (.stackOverflow, 0) else none
  | .pop r =>
    if (if r.toNat = 7 then s.byteAt s.sp.toNat else s.sp).toNat = 255 then some (.stackUnderflow, 255) else none
  | .ret => if s.sp.toNat = 255 then some (.stackUnderflow, 255) else none
  | .hlt | .ldi .. | .prn _ | .mul .. | .add .. => none

/-- Rows 4 and 5 of R183, operand a before operand b: the first register byte that names no register, and `e` if there
is none. -/
def indexErrorOr (e : Option (ErrorKind × Nat)) : List Byte → Option (ErrorKind × Nat)
  | [] => e
  | r :: rest => if 8 ≤ r.toNat then some (.invalidRegister, r.toNat) else indexErrorOr e rest

/-- The rows of R183 that are left once the instruction is known: its register bytes, then the stack pointer. -/
def instrError (s : State) (i : Instr) : Option (ErrorKind × Nat) := indexErrorOr (stackError s i) i.regOperands

theorem indexErrorOr_eq_find (e : Option (ErrorKind × Nat)) (rs : List Byte) :
    indexErrorOr e rs = ((rs.find? (fun q => !isRegIndex q)).map fun r => (ErrorKind.invalidRegister, r.toNat)).or e := by
  induction rs with
  | nil => rfl
  | cons r rest ih =>
    unfold indexErrorOr
    by_cases h : 8 ≤ r.toNat
    · rw [if_pos h, find_bad_a rest h]; rfl
    · simp [h, (isRegIndex_iff r).mpr (Nat.not_le.mp h), ih]

theorem instrError_of_find_bad {i : Instr} {r : Byte} (s : State)
    (h : i.regOperands.find? (fun q => !isRegIndex q) = some r) : instrError s i = some (.invalidRegister, r.toNat) := by
  unfold instrError; rw [indexErrorOr_eq_find, h]; rfl

theorem instrError_of_wellFormed {i : Instr} (s : State) (h : i.wellFormed = true) : instrError s i = stackError s i := by
  unfold instrError; rw [indexErrorOr_eq_find, (wellFormed_iff_find_bad_eq_none i).mp h]; rfl

theorem stackError_pop_regByte (s : State) (d : Fin 8) :
    stackError s (.pop (regByte d)) =
      if (if d = spIndex then s.byteAt s.sp.toNat else s.sp).toNat = 255 then some (.stackUnderflow, 255) else none := by
  have hd : (regByte d).toNat = 7 ↔ d = spIndex := by rw [regByte_toNat]; exact (Fin.ext_iff (b := spIndex)).symm
  simp only [stackError, hd]

namespace Effect

variable {s t : State} {i : Instr}

/-- An instruction raises exactly the error the table gives it, one of the three kinds of R172, R175 and R176; without
one it completes, and keeps the record and, HLT apart, the run state. -/
theorem faults_or_completes (h : Effect s i t) :
    (∃ k n, instrError s i = some (k, n) ∧ k ∈ [.invalidRegister, .stackOverflow, .stackUnderflow] ∧
      t = s.withFault k n) ∨
    (instrError s i = none ∧ t.fault = s.fault ∧ t.state = if i = .hlt then .halted else s.state) := by
  obtain hw | ⟨r, hr, ht⟩ := h.wellFormed_or_badIndex
  · rw [instrError_of_wellFormed s hw]
    cases h with
    | badIndex _ r hr => rw [(wellFormed_iff_find_bad_eq_none i).mp hw] at hr; cases hr
    | overflow _ d hd h0 =>
      left; exact ⟨.stackOverflow, 0, by obtain rfl | rfl := hd <;> exact if_pos h0, by decide, rfl⟩
    | underflowPop d hv =>
      left; exact ⟨.stackUnderflow, 255, by rw [stackError_pop_regByte, if_pos hv], by decide, rfl⟩
    | underflowRet h255 => left; exact ⟨.stackUnderflow, 255, if_pos h255, by decide, rfl⟩
    | push d h0 | call d h0 => right; exact ⟨if_neg h0, rfl, rfl⟩
    | pop d v hv h255 => right; exact ⟨by rw [stackError_pop_regByte, ← hv, if_neg h255], rfl, rfl⟩
    | ret h255 => right; exact ⟨if_neg h255, rfl, rfl⟩
    | hlt | ldi | prn | mul | add => right; exact ⟨rfl, rfl, rfl⟩
  · left; exact ⟨_, _, instrError_of_find_bad s hr, by decide, ht⟩

end Effect

namespace CycleEffect

variable {opc : Opc} {s t : State}

/-- A running machine that is faulted after a cycle has made a fault entry and nothing else: OutOfBounds where the fetch
failed, and one of four kinds where it succeeded. -/
theorem faulted_cases (h : CycleEffect opc s t) (hr : s.state = .running) (ht : t.state = .faulted) :
    (254 ≤ s.pc.toNat ∧ t = s.withFault .outOfBounds (max 256 s.pc.toNat)) ∨
    (s.Fetchable ∧ ∃ k n, k ∈ [.unknownOpcode, .invalidRegister, .stackOverflow, .stackUnderflow] ∧
      t = s.withFault k n) := by
  cases h with
  | idle hT => exact absurd hr hT
  | fetchFault _ hTop => exact .inl ⟨hTop, rfl⟩
  | unknownOpcode _ hf _ => exact .inr ⟨hf, _, _, by decide, rfl⟩
  | instr _ hf i _ _ hEff =>
    obtain ⟨k, n, -, hk, e⟩ | ⟨-, -, e⟩ := hEff.faults_or_completes
    · exact .inr ⟨hf, k, n, List.mem_cons_of_mem _ hk, e⟩
    · rw [hr, ht] at e
      split at e <;> cases e

/-- A cycle of a running machine whose fetch fails answers the fetch fault (R118). -/
theorem eq_of_top (h : CycleEffect opc s t) (hr : s.state = .running) (hTop : 254 ≤ s.pc.toNat) :
    t = s.withFault .outOfBounds (max 256 s.pc.toNat) := by
  have hNot : ¬ s.Fetchable := Nat.not_le.mpr hTop
  cases h with
  | idle hT => exact absurd hr hT
  | fetchFault => rfl
  | unknownOpcode _ hf | instr _ hf => exact absurd hf hNot

end CycleEffect

/-- Settles O27: whatever fault was entered, the entry is `withFault`. -/
theorem faultsArePrecise : Obligations.FaultsArePrecise := by
  unfold Obligations.FaultsArePrecise
  intro opc s t hr h ht
  obtain ⟨-, rfl⟩ | ⟨-, k, n, -, rfl⟩ := (cycleEffect_of_cycle h).faulted_cases hr ht <;> exact ⟨_, rfl, rfl⟩

/-- Settles O29: the primitives are partial by definition; of the faults a cycle enters only the fetch's is OutOfBounds,
and with `pc` at most 256 its first missing address is 256. -/
theorem outOfBoundsOnlyFromTheFetch : Obligations.OutOfBoundsOnlyFromTheFetch := by
  unfold Obligations.OutOfBoundsOnlyFromTheFetch
  refine ⟨fun a v s ha => ⟨memRead_ge s ha, if_neg (Nat.not_lt.mpr ha)⟩, fun opc s t hr hPc h => ?_⟩
  have hEff : CycleEffect opc s t := cycleEffect_of_cycle h
  have hKind : ∀ f, t.fault = some f → t.state = .faulted → f.kind = .outOfBounds →
      254 ≤ s.pc.toNat ∧ f.info.toNat = 256 := by
    intro f hf ht hk
    obtain ⟨hTop, rfl⟩ | ⟨-, k, n, hMem, rfl⟩ := hEff.faulted_cases hr ht
    · rw [Nat.max_eq_left hPc] at hf
      cases hf
      exact ⟨hTop, rfl⟩
    · cases hf
      cases hk
      exact absurd hMem (by decide)
  refine ⟨⟨fun ⟨f, hf, ht, hk⟩ => (hKind f hf ht hk).1, fun hTop => ?_⟩, fun f hf ht hk => (hKind f hf ht hk).2⟩
  obtain rfl := hEff.eq_of_top hr hTop
  exact ⟨_, rfl, rfl, rfl⟩

/-- Settles O30: neither kind is among those a cycle enters. -/
theorem unsupportedOperationIsUnreachable : Obligations.UnsupportedOperationIsUnreachable := by
  unfold Obligations.UnsupportedOperationIsUnreachable
  intro opc s t f hr h ht hf
  obtain ⟨-, rfl⟩ | ⟨-, k, n, hMem, rfl⟩ := (cycleEffect_of_cycle h).faulted_cases hr ht
  · cases hf; exact ⟨ErrorKind.noConfusion, ErrorKind.noConfusion⟩
  · cases hf; exact ⟨ne_of_mem_of_not_mem hMem (by decide), ne_of_mem_of_not_mem hMem (by decide)⟩

/-! ### The table of R183 -/

theorem opcodeByte_inj {opc : Opc} (hv : validOpc opc) {op op' : Op} :
    opcodeByte opc op = opcodeByte opc op' ↔ op = op' := by
  refine ⟨fun h => ?_, congrArg _⟩
  have hFind := findOp_opcodeByte hv op
  rw [h, findOp_opcodeByte hv op'] at hFind
  exact (Option.some.inj hFind).symm

theorem findOp_eq_hlt_iff {opc : Opc} {o : Byte} : findOp opc o = some .hlt ↔ o = opcHlt :=
  ⟨fun h => (opcodeByte_of_findOp h).symm, fun h => h ▸ findOp_opcHlt opc⟩

/-- The bytes of the map and HLT's are all there are (R88). -/
theorem findOp_eq_none_iff_notMem {opc : Opc} {o : Byte} :
    findOp opc o = none ↔
      o ≠ opcHlt ∧ o ∉ [opc.ldi, opc.prn, opc.mul, opc.add, opc.push, opc.pop, opc.call, opc.ret] := by
  unfold findOp
  by_cases h : o = opcHlt
  · simp [h]
  · simp [h, opcodeMap, List.lookup_eq_none_iff]

/-- Under a valid `OPC` the table's tests of the opcode byte are tests of the mnemonic, and its first three rows leave an
instruction its own errors. -/
theorem firstError_of_instrAt {opc : Opc} (hv : validOpc opc) {s : State} {i : Instr} (hf : s.Fetchable)
    (hi : s.instrAt opc = .ok i) : firstError opc s = instrError s i := by
  have hTop : ¬ 254 ≤ s.pc.toNat := Nat.not_le.mpr (Nat.lt_succ_of_le hf)
  obtain ⟨op, hOp, rfl⟩ := instrAt_ok_iff.mp hi
  have hOpcode : ∀ op', s.fetched 0 = opcodeByte opc op' ↔ op = op' := fun op' => by
    rw [← opcodeByte_of_findOp hOp, opcodeByte_inj hv]
  have hHlt : s.fetched 0 = opcHlt ↔ op = .hlt := hOpcode .hlt
  have hLdi : s.fetched 0 = opc.ldi ↔ op = .ldi := hOpcode .ldi
  have hPrn : s.fetched 0 = opc.prn ↔ op = .prn := hOpcode .prn
  have hMul : s.fetched 0 = opc.mul ↔ op = .mul := hOpcode .mul
  have hAdd : s.fetched 0 = opc.add ↔ op = .add := hOpcode .add
  have hPush : s.fetched 0 = opc.push ↔ op = .push := hOpcode .push
  have hPop : s.fetched 0 = opc.pop ↔ op = .pop := hOpcode .pop
  have hCall : s.fetched 0 = opc.call ↔ op = .call := hOpcode .call
  have hRet : s.fetched 0 = opc.ret ↔ op = .ret := hOpcode .ret
  unfold firstError
  simp only [hTop, if_false, List.mem_cons, List.not_mem_nil, ne_eq, hHlt, hLdi, hPrn, hMul, hAdd, hPush, hPop,
    hCall, hRet]
  unfold instrError
  cases op with
  | hlt | ldi | prn | mul | add | push | call | ret =>
    simp [Op.withOperands, Instr.regOperands, indexErrorOr, stackError]
  | pop =>
    by_cases h7 : (s.fetched 1).toNat = 7 <;>
      simp [Op.withOperands, Instr.regOperands, indexErrorOr, stackError, h7]

theorem instrAt_hlt_iff {opc : Opc} {s : State} {i : Instr} (hi : s.instrAt opc = .ok i) :
    i = .hlt ↔ s.fetched 0 = opcHlt := by
  refine ⟨fun e => ?_, fun e => ?_⟩
  · rw [fetched_of_instrAt hi, e]; rfl
  · unfold State.instrAt at hi
    rw [e, decode_opcHlt] at hi
    exact (Except.ok.inj hi).symm

namespace CycleEffect

variable {opc : Opc} {s t : State}

/-- A running machine makes the fault entry of the first error of the table; without one it completes, keeps the record,
and halts where the byte is HLT's. -/
theorem faults_first_or_completes (h : CycleEffect opc s t) (hv : validOpc opc) (hr : s.state = .running)
    (hPc : s.pc.toNat ≤ 256) :
    (∃ k n, firstError opc s = some (k, n) ∧ t = s.withFault k n) ∨
    (firstError opc s = none ∧ t.fault = s.fault ∧
      t.state = if s.fetched 0 = opcHlt then .halted else .running) := by
  cases h with
  | idle hT => exact absurd hr hT
  | fetchFault _ hTop => left; exact ⟨_, _, if_pos hTop, by rw [Nat.max_eq_left hPc]⟩
  | unknownOpcode _ hf hOp =>
    left
    have hTop : ¬ 254 ≤ s.pc.toNat := Nat.not_le.mpr (Nat.lt_succ_of_le hf)
    obtain ⟨hHlt, hNot⟩ := findOp_eq_none_iff_notMem.mp hOp
    refine ⟨_, _, ?_, rfl⟩
    unfold firstError
    simp only [if_neg hTop, if_neg hHlt, if_pos hNot]
  | instr _ hf i hi _ hEff =>
    rw [firstError_of_instrAt hv hf hi, ← hr]
    simp only [← instrAt_hlt_iff hi]
    exact hEff.faults_or_completes.imp (fun ⟨k, n, he, _, ht⟩ => ⟨k, n, he, ht⟩) id

end CycleEffect

/-- Settles O28: the two outcomes of a cycle exclude each other by what the table says. -/
theorem firstErrorOfTheTableIsReported : Obligations.FirstErrorOfTheTableIsReported := by
  unfold Obligations.FirstErrorOfTheTableIsReported
  intro opc hv s hr hPc
  obtain ⟨t, h⟩ := cycle_answers opc s
  rw [h]
  obtain ⟨k, n, hErr, rfl⟩ | ⟨hErr, hFault, hState⟩ := (cycleEffect_of_cycle h).faults_first_or_completes hv hr hPc
  · refine ⟨fun kind info e => ?_, fun e => ?_⟩
    · cases hErr.symm.trans e; rfl
    · cases hErr.symm.trans e
  · refine ⟨fun kind info e => ?_, fun _ => ⟨t, rfl, ?_, hFault⟩⟩
    · cases hErr.symm.trans e
    · rw [hState]; split <;> decide

/-! ## The run state (spec/10_state.md section 4) and runs -/

/-- A running machine halts exactly by HLT, whatever `OPC` is (R115). -/
theorem CycleEffect.halted_iff {opc : Opc} {s t : State} (h : CycleEffect opc s t) (hr : s.state = .running) :
    t.state = .halted ↔ s.Fetchable ∧ s.fetched 0 = opcHlt := by
  cases h with
  | idle hT => exact absurd hr hT
  | fetchFault _ hTop => simp [Nat.not_le.mpr hTop]
  | unknownOpcode _ hf hOp => simp [(findOp_eq_none_iff_notMem.mp hOp).1]
  | instr _ hf i hi _ hEff =>
    rw [← instrAt_hlt_iff hi, and_iff_right hf]
    obtain ⟨k, n, hErr, -, rfl⟩ | ⟨-, -, hState⟩ := hEff.faults_or_completes
    · have hNot : i ≠ .hlt := fun e => by rw [e] at hErr; cases hErr
      simp [hNot]
    · simp [hState, hr]

/-- Settles O32: the terminal states are left by no cycle, and a running machine's cycle is described by the table and
by HLT's byte. -/
theorem runStateTransitions : Obligations.RunStateTransitions := by
  unfold Obligations.RunStateTransitions
  intro opc hv s t h
  have hEff : CycleEffect opc s t := cycleEffect_of_cycle h
  have hIdle : s.Terminal → t = s := fun hT => by cases (cycle_terminal opc hT).symm.trans h; rfl
  refine ⟨fun hs => ?_, fun hs => ?_, hEff.halted_iff, fun hr hPc => ?_, fun hr hPc => ?_⟩
  · rw [hIdle (by unfold State.Terminal; rw [hs]; decide), hs]
  · rw [hIdle (by unfold State.Terminal; rw [hs]; decide), hs]
  · obtain ⟨k, n, hErr, rfl⟩ | ⟨hErr, -, hState⟩ := hEff.faults_first_or_completes hv hr hPc
    · simp [hErr]
    · simp only [hErr, hState, Option.isSome_none]
      split <;> decide
  · obtain ⟨k, n, hErr, rfl⟩ | ⟨hErr, -, hState⟩ := hEff.faults_first_or_completes hv hr hPc
    · simp [hErr]
    · simp [hErr, hState]

/-- Settles O33, by induction on the number of steps. -/
theorem terminalStatesNeverChange : Obligations.TerminalStatesNeverChange := by
  unfold Obligations.TerminalStatesNeverChange
  intro n s hs
  have hT : s.Terminal := by obtain hs | hs := hs <;> simp [hs]
  induction n with
  | zero => exact run_zero s
  | succ n ih => rw [run_succ (cycle_terminal defaultOpc hT), ih]

/-- Settles O31: the invariant puts a state with a record in `Faulted`, which no step leaves. -/
theorem faultRecordIsWrittenOnce : Obligations.FaultRecordIsWrittenOnce := by
  unfold Obligations.FaultRecordIsWrittenOnce
  intro n s t f hInv hf h
  have hs : s.state = .faulted := hInv.fault.mp (by rw [hf]; rfl)
  cases (terminalStatesNeverChange n s (.inr hs)).symm.trans h
  exact ⟨hf, hs⟩

/-- Settles O35, by induction on the number of steps. -/
theorem everyRunAnswersAState : Obligations.EveryRunAnswersAState := by
  unfold Obligations.EveryRunAnswersAState
  intro n
  induction n with
  | zero => exact fun s => ⟨s, run_zero s⟩
  | succ n ih =>
    intro s
    obtain ⟨t, ht⟩ := cycle_answers defaultOpc s
    obtain ⟨u, hu⟩ := ih t
    exact ⟨u, (run_succ ht).trans hu⟩

/-- An instruction that keeps the run state moves `pc` or `sp`. -/
theorem Effect.ne_of_running {s t : State} {i : Instr} (h : Effect s i t) (hr : s.state = .running)
    (hf : s.Fetchable) : t ≠ s := by
  have hAdvance : ∀ (u : State) (n : Nat), u.pc = s.pc → 0 < n → n ≤ 3 → u.advance n ≠ s := by
    intro u n hu h0 hn e
    have hu' : u.Fetchable := by unfold State.Fetchable; rw [hu]; exact hf
    have hPc : (u.advance n).pc.toNat = u.pc.toNat + n := advance_pc_toNat hu' hn
    rw [e, hu] at hPc
    omega
  have hState : t.state ≠ .running → t ≠ s := fun ht e => ht (e ▸ hr)
  cases h with
  | badIndex | overflow | underflowPop | underflowRet | hlt => exact hState (by simp)
  | ldi | mul | add => exact hAdvance _ 3 rfl (by decide) (by decide)
  | prn | push | pop => exact hAdvance _ 2 rfl (by decide) (by decide)
  | call d h0 =>
    intro e
    have hSp : s.sp - 1#8 = s.sp := by simpa using congrArg State.sp e
    bv_omega
  | ret h255 =>
    intro e
    have hSp : s.sp + 1#8 = s.sp := by simpa using congrArg State.sp e
    bv_omega

theorem CycleEffect.ne_of_running {opc : Opc} {s t : State} (h : CycleEffect opc s t) (hr : s.state = .running) :
    t ≠ s := by
  cases h with
  | idle hT => exact absurd hr hT
  | fetchFault | unknownOpcode => intro e; cases (congrArg State.state e).trans hr
  | instr _ hf _ _ _ hEff => exact hEff.ne_of_running hr hf

/-- Settles O34: a running machine's cycle enters a terminal state or runs an instruction, and neither leaves the state
as it was. -/
theorem onlyTerminalStatesStepToThemselves : Obligations.OnlyTerminalStatesStepToThemselves := by
  unfold Obligations.OnlyTerminalStatesStepToThemselves
  exact fun s => ⟨fun h hr => (cycleEffect_of_cycle h).ne_of_running hr rfl, cycle_terminal defaultOpc⟩

end Sys2Proof.Machine

/-! ## PUSH and POP (spec/43_stack_push_pop.md R150 to R153) -/

namespace Sys2Proof.Machine

theorem exec_push_regByte {s : State} (d : Fin 8) (h : s.sp.toNat ≠ 0) :
    exec (.push (regByte d)) s = .next ((pushed s (regAfterDec s d)).advance 2) :=
  (finish_checkReg_regByte s d _).trans (by rw [pushByte_pos _ h, ok_bind, finish_ok, reg_after_dec])

theorem exec_push_overflow {s : State} (d : Fin 8) (h : s.sp.toNat = 0) :
    exec (.push (regByte d)) s = .next (s.withFault .stackOverflow 0) :=
  (finish_checkReg_regByte s d _).trans (by rw [pushByte_zero _ h, error_bind, finish_error, raise_eq_withFault])

theorem exec_push_bad (s : State) {r : Byte} (h : 8 ≤ r.toNat) :
    exec (.push r) s = .next (s.withFault .invalidRegister r.toNat) :=
  finish_checkReg_bad s _ h

/-- POP increments the stack pointer it finds after `x[d]` has been written, which for `R7` is the popped byte (D10). -/
theorem exec_pop_regByte {s : State} {d : Fin 8} {v : Byte} (hv : (s.setReg d (s.byteAt s.sp.toNat)).sp = v)
    (h : v.toNat ≠ 255) :
    exec (.pop (regByte d)) s = .next (((s.setReg d (s.byteAt s.sp.toNat)).setSp (v + 1#8)).advance 2) := by
  subst hv
  exact (finish_checkReg_regByte s d _).trans (by rw [popByte_eq, ok_bind, incSp_lt h, ok_bind, finish_ok])

theorem exec_pop_underflow {s : State} {d : Fin 8} (h : (s.setReg d (s.byteAt s.sp.toNat)).sp.toNat = 255) :
    exec (.pop (regByte d)) s = .next (s.withFault .stackUnderflow 255) :=
  (finish_checkReg_regByte s d _).trans
    (by rw [popByte_eq, ok_bind, incSp_top h, error_bind, finish_error, raise_eq_withFault])

theorem exec_pop_bad (s : State) {r : Byte} (h : 8 ≤ r.toNat) :
    exec (.pop r) s = .next (s.withFault .invalidRegister r.toNat) :=
  finish_checkReg_bad s _ h

theorem sp_setReg_of_ne (s : State) {d : Fin 8} (v : Byte) (h : d ≠ spIndex) : (s.setReg d v).sp = s.sp :=
  reg_setReg_ne s v h.symm

theorem sp_setReg_spIndex (s : State) (v : Byte) : (s.setReg spIndex v).sp = v := sp_setSp s v

/-- Settles O16: PUSH is a push of the register read after the decrement, and the advance; the register check and the
decrement fail before anything is written. -/
theorem pushStoresBelowTheStackPointer : Obligations.PushStoresBelowTheStackPointer := by
  unfold Obligations.PushStoresBelowTheStackPointer
  intro s hf
  refine ⟨fun d h => ?_, fun d h => exec_push_overflow d h, fun r h => exec_push_bad s h⟩
  have hRegs : SameRegsBut [spIndex] s (pushed s (regAfterDec s d)) := sameRegsBut_pushed s _
  have hMem : SameMemoryBut (pushAddr s) s (pushed s (regAfterDec s d)) := sameMemoryBut_pushed s _
  refine ⟨_, exec_push_regByte d h, pushAddr_succ h, ?sp, hRegs, ?stored, hMem, ?pc, rfl, rfl, rfl⟩
  case sp => rw [sp_advance, pushed_sp, pushAddr]
  case stored => rw [byteAt_advance, byteAt_pushAddr_pushed]
  case pc => exact advance_pc_toNat (s := pushed s _) hf (by decide)

/-- A pop touches its destination and the stack pointer, and no other register (R22). -/
theorem sameRegsBut_popped (s : State) (d : Fin 8) (v w : Byte) :
    SameRegsBut [d, spIndex] s ((s.setReg d v).setSp w) := by
  intro j hj
  simp only [List.mem_cons, List.not_mem_nil, or_false, not_or] at hj
  obtain ⟨hd, hSp⟩ := hj
  rw [reg_setSp, if_neg hSp, reg_setReg_ne s v hd]

/-- Settles O17: POP is a register write, one step of the stack pointer and the advance; the cases differ in whether the
step starts from the old `sp` or from the popped byte. -/
theorem popLoadsFromTheStackPointer : Obligations.PopLoadsFromTheStackPointer := by
  unfold Obligations.PopLoadsFromTheStackPointer
  intro s hf
  refine ⟨fun d hd h => ?other, fun h => ?r7, fun d hd h => ?_, fun h => ?_, fun r h => exec_pop_bad s h⟩
  case other =>
    have hv := sp_setReg_of_ne s (s.byteAt s.sp.toNat) hd
    have hRegs : SameRegsBut [d, spIndex] s ((s.setReg d (s.byteAt s.sp.toNat)).setSp (s.sp + 1#8)) :=
      sameRegsBut_popped s d _ _
    refine ⟨_, exec_pop_regByte hv h, ?reg, ?sp, hRegs, ?pc, fun _ => rfl, rfl, rfl, rfl⟩
    case reg => rw [reg_advance, reg_setSp, if_neg hd, reg_setReg_self]
    case sp => rw [sp_advance, sp_setSp, succ_sp_toNat h]
    case pc => exact advance_pc_toNat (s := (s.setReg d _).setSp _) hf (by decide)
  case r7 =>
    have hv := sp_setReg_spIndex s (s.byteAt s.sp.toNat)
    have hRegs : SameRegsBut [spIndex] s ((s.setReg spIndex (s.byteAt s.sp.toNat)).setSp (s.byteAt s.sp.toNat + 1#8)) :=
      fun j hj => sameRegsBut_popped s spIndex _ _ j (by simpa using hj)
    refine ⟨_, exec_pop_regByte hv h, ?sp, hRegs, ?pc, fun _ => rfl, rfl, rfl, rfl⟩
    case sp => rw [sp_advance, sp_setSp, succ_sp_toNat h]
    case pc => exact advance_pc_toNat (s := (s.setReg spIndex _).setSp _) hf (by decide)
  · exact exec_pop_underflow (by rw [sp_setReg_of_ne s _ hd, h])
  · exact exec_pop_underflow (by rw [sp_setReg_spIndex, h])

end Sys2Proof.Machine

/-! ## Who may change registers, memory and output (spec/10_state.md R22, R33, R38) -/

namespace Sys2Proof.Machine

theorem eq_of_reg_setReg_ne {s : State} {d j : Fin 8} {v : Byte} (h : (s.setReg d v).reg j ≠ s.reg j) : j = d :=
  not_imp_comm.mp (reg_setReg_ne s v) h

/-- Settles O22: every effect writes registers by `setReg` and by `setSp` alone. -/
theorem registersChangedOnlyAsTabled : Obligations.RegistersChangedOnlyAsTabled := by
  unfold Obligations.RegistersChangedOnlyAsTabled
  intro i s t j hExec hj
  cases effect_of_exec hExec with
  | badIndex | overflow | underflowPop | underflowRet | hlt | prn => exact absurd rfl hj
  | ldi d | mul d | add d => exact congrArg regByte (eq_of_reg_setReg_ne hj).symm
  | push | call | ret => exact eq_of_reg_setReg_ne hj
  | pop d v =>
    by_contra hNot
    obtain ⟨hd, hSp⟩ := not_or.mp hNot
    exact hj (sameRegsBut_popped s d _ _ j (by simpa using ⟨fun e => hd (congrArg regByte e.symm), hSp⟩))

theorem Effect.byteAt_ne {s t : State} {i : Instr} {a : Nat} (h : Effect s i t) (ha : t.byteAt a ≠ s.byteAt a) :
    (∃ d, i = .push (regByte d) ∨ i = .call (regByte d)) ∧ a + 1 = s.sp.toNat := by
  have hPushed : ∀ v, s.sp.toNat ≠ 0 → (pushed s v).byteAt a ≠ s.byteAt a → a + 1 = s.sp.toNat := by
    intro v h0 hne
    have hAddr : a = pushAddr s := not_imp_comm.mp (sameMemoryBut_pushed s v a) hne
    rw [hAddr, pushAddr_succ h0]
  cases h with
  | push d h0 => exact ⟨⟨d, .inl rfl⟩, hPushed _ h0 ha⟩
  | call d h0 => exact ⟨⟨d, .inr rfl⟩, hPushed _ h0 ha⟩
  | badIndex | overflow | underflowPop | underflowRet | hlt | ldi | prn | mul | add | pop | ret => exact absurd rfl ha

/-- Settles O23: of all that a cycle can do, only the two pushes write memory. -/
theorem onlyPushAndCallWriteMemory : Obligations.OnlyPushAndCallWriteMemory := by
  unfold Obligations.OnlyPushAndCallWriteMemory
  intro opc s t a h ha
  cases cycleEffect_of_cycle h with
  | idle | fetchFault | unknownOpcode => exact absurd rfl ha
  | instr hr hf i hi _ hEff =>
    obtain ⟨⟨d, hd⟩, hSp⟩ := hEff.byteAt_ne ha
    have hOpcode : s.fetched 0 = opcodeByte opc i.op := fetched_of_instrAt hi
    exact ⟨hr, hf, hd.imp (fun e => by rw [hOpcode, e]; rfl) (fun e => by rw [hOpcode, e]; rfl), hSp⟩

theorem Effect.out_eq_or_prn {s t : State} {i : Instr} (h : Effect s i t) :
    t.out = s.out ∨ ∃ d, i = .prn (regByte d) := by
  cases h with
  | prn d => exact .inr ⟨d, rfl⟩
  | badIndex | overflow | underflowPop | underflowRet | hlt | ldi | mul | add | push | pop | call | ret =>
    exact .inl rfl

theorem fetched_one_of_instrAt_prn {opc : Opc} {s : State} {r : Byte} (h : s.instrAt opc = .ok (.prn r)) :
    s.fetched 1 = r := by
  obtain ⟨op, -, e⟩ := instrAt_ok_iff.mp h
  cases op <;> cases e
  rfl

theorem CycleEffect.out_eq_or_prn {opc : Opc} {s t : State} (h : CycleEffect opc s t) :
    t.out = s.out ∨
      (s.state = .running ∧ s.Fetchable ∧ s.fetched 0 = opc.prn ∧ (s.fetched 1).toNat < 8) := by
  cases h with
  | idle | fetchFault | unknownOpcode => exact .inl rfl
  | instr hr hf i hi _ hEff =>
    refine hEff.out_eq_or_prn.imp_right ?_
    rintro ⟨d, rfl⟩
    exact ⟨hr, hf, fetched_of_instrAt hi, by rw [fetched_one_of_instrAt_prn hi, regByte_toNat]; exact d.isLt⟩

/-- Settles O24: the opcode byte and the operand give the instruction, whose meaning O13 describes; and a cycle that is
no such PRN emits nothing. -/
theorem onlyPrnEmits : Obligations.OnlyPrnEmits := by
  unfold Obligations.OnlyPrnEmits
  intro opc hv s t h
  refine ⟨fun d hr hf h0 h1 => ?_, fun hNot => ?_⟩
  · have hi : s.instrAt opc = .ok (.prn (regByte d)) := by
      rw [instrAt_of_opcode hv (op := .prn) h0, h1]; rfl
    rw [cycle_of_instrAt hr hf hi, exec_prn_regByte] at h
    cases h
    exact ⟨by simp [outPort], rfl⟩
  · have hOut : t.out = s.out := (cycleEffect_of_cycle h).out_eq_or_prn.resolve_right hNot
    exact ⟨by simp [outPort, hOut], hOut⟩

/-! ### Emitted bytes do not influence a run (R29, R38) -/

/-- The effects are exactly what `exec` answers, so an effect determines the next state. -/
theorem exec_of_effect {s t : State} {i : Instr} (h : Effect s i t) : exec i s = .next t := by
  have hPop : ∀ d : Fin 8, (s.setReg d (s.byteAt s.sp.toNat)).sp = if d = spIndex then s.byteAt s.sp.toNat else s.sp :=
    fun d => by rw [sp_setReg]; simp only [eq_comm]
  cases h with
  | badIndex _ r hr => exact (invalidRegisterExactlyForBadIndices i s).1 r hr
  | overflow _ d hd h0 =>
    obtain rfl | rfl := hd
    · exact exec_push_overflow d h0
    · exact exec_call_overflow d h0
  | underflowPop d hv => exact exec_pop_underflow (by rw [hPop, hv])
  | underflowRet h255 => exact exec_ret_underflow h255
  | hlt => exact exec_hlt s
  | ldi d imm => exact exec_ldi_regByte s d imm
  | prn d => exact exec_prn_regByte s d
  | mul a b => exact finish_aluApply_regByte .mul a b s
  | add a b => exact finish_aluApply_regByte .add a b s
  | push d h0 => exact exec_push_regByte d h0
  | pop d v hv h255 => exact exec_pop_regByte (hv ▸ hPop d) h255
  | call d h0 => exact exec_call_regByte d h0
  | ret h255 => exact exec_ret_lt h255

theorem cycle_of_cycleEffect {opc : Opc} {s t : State} (h : CycleEffect opc s t) : cycle opc s = .next t := by
  cases h with
  | idle hT => exact cycle_terminal opc hT
  | fetchFault hr hTop => exact cycle_of_fetch_top opc hr hTop
  | unknownOpcode hr hf hOp =>
    rw [cycle_running opc hr, runCycle_fetchable opc hf, dispatch_of_findOp_eq_none _ _ s hOp]
  | instr hr hf i hi _ hEff => exact (cycle_of_instrAt hr hf hi).trans (exec_of_effect hEff)

/-- `s` with other contents of the observation channel. -/
def State.withOut (s : State) (o : List Byte) : State := { s with out := o }

/-- An effect appends the same bytes whatever the channel holds, and is the same otherwise. -/
theorem Effect.withOut {s t : State} {i : Instr} (h : Effect s i t) (o : List Byte) :
    ∃ l, t.out = s.out ++ l ∧ Effect (s.withOut o) i (t.withOut (o ++ l)) := by
  have silent : t.out = s.out → Effect (s.withOut o) i (t.withOut o) →
      ∃ l, t.out = s.out ++ l ∧ Effect (s.withOut o) i (t.withOut (o ++ l)) :=
    fun hOut hEff => ⟨[], by rw [hOut, List.append_nil], by rwa [List.append_nil]⟩
  cases h with
  | prn d => exact ⟨[s.reg d], rfl, .prn d⟩
  | badIndex _ r hr => exact silent rfl (.badIndex _ r hr)
  | overflow _ d hd h0 => exact silent rfl (.overflow _ d hd h0)
  | underflowPop d hv => exact silent rfl (.underflowPop d hv)
  | underflowRet h255 => exact silent rfl (.underflowRet h255)
  | hlt => exact silent rfl .hlt
  | ldi d imm => exact silent rfl (.ldi d imm)
  | mul a b => exact silent rfl (.mul a b)
  | add a b => exact silent rfl (.add a b)
  | push d h0 => exact silent rfl (.push d h0)
  | pop d v hv h255 => exact silent rfl (.pop d v hv h255)
  | call d h0 => exact silent rfl (.call d h0)
  | ret h255 => exact silent rfl (.ret h255)

theorem CycleEffect.withOut {opc : Opc} {s t : State} (h : CycleEffect opc s t) (o : List Byte) :
    ∃ l, t.out = s.out ++ l ∧ CycleEffect opc (s.withOut o) (t.withOut (o ++ l)) := by
  cases h with
  | idle hT => exact ⟨[], by rw [List.append_nil], by rw [List.append_nil]; exact .idle hT⟩
  | fetchFault hr hTop => exact ⟨[], by simp, by rw [List.append_nil]; exact .fetchFault hr hTop⟩
  | unknownOpcode hr hf hOp => exact ⟨[], by simp, by rw [List.append_nil]; exact .unknownOpcode hr hf hOp⟩
  | instr hr hf i hi _ hEff =>
    obtain ⟨l, hOut, hEff'⟩ := hEff.withOut o
    exact ⟨l, hOut, .instr (s := s.withOut o) hr hf i hi _ hEff'⟩

/-- By induction on the number of steps: a run appends the same bytes whatever the channel holds. -/
theorem run_withOut {n : Nat} {s t : State} (o : List Byte) (h : Host.Core.run Sys2Proof.core n s = .next t) :
    ∃ l, t.out = s.out ++ l ∧ Host.Core.run Sys2Proof.core n (s.withOut o) = .next (t.withOut (o ++ l)) := by
  induction n generalizing s o with
  | zero =>
    cases (run_zero s).symm.trans h
    exact ⟨[], by rw [List.append_nil], by rw [List.append_nil]; exact run_zero _⟩
  | succ n ih =>
    obtain ⟨u, hu⟩ := cycle_answers defaultOpc s
    rw [run_succ hu] at h
    obtain ⟨l, hl, hCycle⟩ := (cycleEffect_of_cycle hu).withOut o
    obtain ⟨l', hl', hRun⟩ := ih (o ++ l) h
    refine ⟨l ++ l', by rw [hl', hl, List.append_assoc], ?_⟩
    rw [run_succ (cycle_of_cycleEffect hCycle), hRun, List.append_assoc]

/-- Settles O25: what the run appended is what `out` holds beyond the old contents. -/
theorem emittedBytesNeverInfluenceARun : Obligations.EmittedBytesNeverInfluenceARun := by
  unfold Obligations.EmittedBytesNeverInfluenceARun
  intro n s t o h
  obtain ⟨l, hl, hRun⟩ := run_withOut o h
  rw [hl, List.drop_left]
  exact hRun

end Sys2Proof.Machine

/-! ## Words placed for the fetch, and stores seen by it (spec/10_state.md R37, spec/20_memory.md R62) -/

namespace Sys2Proof.Machine

theorem byteAt_placeByte {s : State} {a : Nat} (h : a < 256) (v : Byte) (b : Nat) :
    (s.placeByte a v).byteAt b = if b = a then v else s.byteAt b := by
  unfold State.placeByte
  rw [if_pos h, byteAt_write]

theorem placeByte_pc (s : State) (a : Nat) (v : Byte) : (s.placeByte a v).pc = s.pc := by
  unfold State.placeByte; split <;> rfl

theorem placeByte_state (s : State) (a : Nat) (v : Byte) : (s.placeByte a v).state = s.state := by
  unfold State.placeByte; split <;> rfl

theorem withFetchWord_pc (s : State) (nbits w : Nat) : (s.withFetchWord nbits w).pc = s.pc := by
  unfold State.withFetchWord State.placeWord
  simp only [placeByte_pc]

theorem withFetchWord_state (s : State) (nbits w : Nat) : (s.withFetchWord nbits w).state = s.state := by
  unfold State.withFetchWord State.placeWord
  simp only [placeByte_state]

/-- Where the fetch succeeds it reads the three bytes of the word placed (log entry 4). -/
theorem fetched_withFetchWord {s : State} (hf : s.Fetchable) (nbits w : Nat) {k : Nat} (hk : k < 3) :
    (s.withFetchWord nbits w).fetched k = tableByte nbits w k := by
  unfold State.Fetchable at hf
  unfold State.fetched
  rw [withFetchWord_pc]
  unfold State.withFetchWord State.placeWord
  rw [byteAt_placeByte (by omega), byteAt_placeByte (by omega), byteAt_placeByte (by omega)]
  obtain rfl | rfl | rfl : k = 0 ∨ k = 1 ∨ k = 2 := by omega
  · simp
  · simp
  · simp

theorem decode_of_decodeTableWord {nbits w : Nat} {i : Instr} (h : decodeTableWord nbits w = some i) :
    decode defaultOpc (tableByte nbits w 0) (tableByte nbits w 1) (tableByte nbits w 2) = .ok i := by
  unfold decodeTableWord at h
  split at h
  · cases h; assumption
  · cases h

/-- Settles O7: the placed state is running and fetchable as before, and decodes the placed word. -/
theorem placedWordIsRunByNextStep : Obligations.PlacedWordIsRunByNextStep := by
  unfold Obligations.PlacedWordIsRunByNextStep
  intro s nbits w i hr hf h
  have hRun : (s.withFetchWord nbits w).state = .running := (withFetchWord_state s nbits w).trans hr
  have hFetch : (s.withFetchWord nbits w).Fetchable := by
    unfold State.Fetchable; rw [withFetchWord_pc]; exact hf
  have hInstr : (s.withFetchWord nbits w).instrAt defaultOpc = .ok i := by
    unfold State.instrAt
    rw [fetched_withFetchWord hf _ _ (by decide), fetched_withFetchWord hf _ _ (by decide),
      fetched_withFetchWord hf _ _ (by decide), decode_of_decodeTableWord h]
  exact cycle_of_instrAt hRun hFetch hInstr

/-- The fetch at a known address. -/
theorem fetch_of_pc {s : State} {p : Nat} (hPc : s.pc.toNat = p) (h : p ≤ 253) :
    fetch s = .ok (s.byteAt p, s.byteAt (p + 1), s.byteAt (p + 2)) := by
  subst hPc
  exact fetch_ok h

/-- The opcode byte gives the mnemonic, and the mnemonic takes its operands from the two bytes after it. -/
theorem step_of_opcode {s : State} (op : Op) (hr : s.state = .running) (hf : s.Fetchable)
    (h : s.fetched 0 = opcodeByte defaultOpc op) :
    step s = exec (op.withOperands (s.fetched 1) (s.fetched 2)) s :=
  cycle_of_instrAt hr hf (instrAt_of_opcode validOpc_default h)

theorem step_push {s : State} {d : Fin 8} (hr : s.state = .running) (hf : s.Fetchable)
    (h0 : s.fetched 0 = defaultOpc.push) (h1 : s.fetched 1 = regByte d) (hSp : s.sp.toNat ≠ 0) :
    step s = .next ((pushed s (regAfterDec s d)).advance 2) := by
  rw [step_of_opcode .push hr hf h0, h1]
  exact exec_push_regByte d hSp

theorem step_call {s : State} {d : Fin 8} (hr : s.state = .running) (hf : s.Fetchable)
    (h0 : s.fetched 0 = defaultOpc.call) (h1 : s.fetched 1 = regByte d) (hSp : s.sp.toNat ≠ 0) :
    step s = .next ((pushed s (returnAddress s)).jump (regAfterDec s d)) := by
  rw [step_of_opcode .call hr hf h0, h1]
  exact exec_call_regByte d hSp

theorem step_pop {s : State} {d : Fin 8} {v : Byte} (hr : s.state = .running) (hf : s.Fetchable)
    (h0 : s.fetched 0 = defaultOpc.pop) (h1 : s.fetched 1 = regByte d)
    (hv : (s.setReg d (s.byteAt s.sp.toNat)).sp = v) (h : v.toNat ≠ 255) :
    step s = .next (((s.setReg d (s.byteAt s.sp.toNat)).setSp (v + 1#8)).advance 2) := by
  rw [step_of_opcode .pop hr hf h0, h1]
  exact exec_pop_regByte hv h

theorem pushed_advance_pc_toNat {s : State} (hf : s.Fetchable) (v : Byte) :
    ((pushed s v).advance 2).pc.toNat = s.pc.toNat + 2 :=
  advance_pc_toNat (s := pushed s v) hf (by decide)

/-- Settles O45: the next fetch reads memory as the push left it. -/
theorem storesAreSeenByTheNextFetch : Obligations.StoresAreSeenByTheNextFetch := by
  unfold Obligations.StoresAreSeenByTheNextFetch
  intro s d hr hf h1 hSp
  refine ⟨fun h0 hPc => ?_, fun h0 hTarget => ?_⟩
  · exact ⟨_, step_push hr hf h0 h1 hSp, _, _, _, fetch_of_pc (pushed_advance_pc_toNat hf _) (by omega),
      pushed_byteAt s _ _, pushed_byteAt s _ _, pushed_byteAt s _ _⟩
  · have hPc : ((pushed s (returnAddress s)).jump (regAfterDec s d)).pc.toNat = (regAfterDec s d).toNat := by
      rw [jump_pc, zext9_toNat]
    exact ⟨_, step_call hr hf h0 h1 hSp, _, _, _, fetch_of_pc hPc hTarget,
      pushed_byteAt s _ _, pushed_byteAt s _ _, pushed_byteAt s _ _⟩

theorem regAfterDec_spIndex (s : State) : regAfterDec s spIndex = s.sp - 1#8 := if_pos rfl

theorem regAfterDec_of_ne (s : State) {d : Fin 8} (h : d ≠ spIndex) : regAfterDec s d = s.reg d := if_neg h

/-- After a push of a register a pop of the same register puts every register back: the popped byte is the register's
own value, and for `R7` the increment undoes the decrement (R153). -/
theorem reg_popped_pushed (s : State) (d j : Fin 8) :
    (((pushed s (regAfterDec s d)).setReg d (regAfterDec s d)).setSp (s.sp - 1#8 + 1#8)).reg j = s.reg j := by
  by_cases hSp : j = spIndex
  · rw [hSp, reg_spIndex, reg_spIndex, sp_setSp, BitVec.sub_add_cancel]
  · rw [reg_setSp, if_neg hSp]
    by_cases hd : j = d
    · subst hd
      rw [reg_setReg_self, regAfterDec_of_ne s hSp]
    · rw [reg_setReg_ne _ _ hd, pushed_reg, regAfterDec_of_ne s hSp]

/-- Whichever register is popped again, the increment starts from the decremented stack pointer. -/
theorem sp_setReg_pushed (s : State) (d : Fin 8) :
    ((pushed s (regAfterDec s d)).setReg d (regAfterDec s d)).sp = s.sp - 1#8 := by
  by_cases hd : d = spIndex
  · rw [hd, sp_setReg_spIndex, regAfterDec_spIndex]
  · rw [sp_setReg_of_ne _ _ hd, pushed_sp]

/-- Settles O46: the PUSH leaves the POP's two bytes as they were, and the POP reads the byte just pushed. -/
theorem pushThenPopRoundTrip : Obligations.PushThenPopRoundTrip := by
  unfold Obligations.PushThenPopRoundTrip
  intro s d hr hPc hSp h0 h1 h2 h3 hNe2 hNe3
  have hf : s.Fetchable := by unfold State.Fetchable; omega
  have hPush := step_push hr hf h0 h1 hSp
  have hMem : SameMemoryBut (pushAddr s) s (pushed s (regAfterDec s d)) := sameMemoryBut_pushed s _
  have hStored : (pushed s (regAfterDec s d)).byteAt (pushAddr s) = regAfterDec s d := byteAt_pushAddr_pushed s _
  have hPc2 := pushed_advance_pc_toNat hf (regAfterDec s d)
  set t := (pushed s (regAfterDec s d)).advance 2 with ht
  have hf2 : t.Fetchable := by unfold State.Fetchable; omega
  have hOpcode : t.fetched 0 = defaultOpc.pop := by
    unfold State.fetched
    rw [hPc2, ← h2]
    exact hMem _ (by omega)
  have hOperand : t.fetched 1 = regByte d := by
    unfold State.fetched
    rw [hPc2, ← h3]
    exact hMem _ (by omega)
  have hTop : t.byteAt t.sp.toNat = regAfterDec s d := by
    rw [ht, sp_advance, pushed_sp]
    exact hStored
  have hv : (t.setReg d (t.byteAt t.sp.toNat)).sp = s.sp - 1#8 := by
    rw [hTop]
    exact sp_setReg_pushed s d
  have hRoom : (s.sp - 1#8).toNat ≠ 255 := by
    have hBelow : (s.sp - 1#8).toNat + 1 = s.sp.toNat := pushAddr_succ hSp
    have := s.sp.isLt
    omega
  have hPop := step_pop (s := t) hr hf2 hOpcode hOperand hv hRoom
  rw [hTop] at hPop
  refine ⟨_, (run_succ hPush).trans ((run_succ hPop).trans (run_zero _)), fun j _ => reg_popped_pushed s d j, ?pc,
    hStored, hMem, rfl, rfl, rfl⟩
  case pc =>
    refine (advance_pc_toNat (s := (t.setReg d _).setSp _) hf2 (by decide)).trans ?_
    exact congrArg (· + 2) hPc2

end Sys2Proof.Machine

/-! ## The ALU (spec/42_alu_mul_add.md R143) -/

namespace Sys2Proof.Machine

theorem alu_eq_of_exact {op : AluOp} {u v w : Byte} (h : aluExact op u v = w.toNat) : alu op u v = w :=
  BitVec.eq_of_toNat_eq (by rw [alu_toNat, h, Nat.mod_eq_of_lt w.isLt])

/-- Settles O26: each law is about the exact result before it is narrowed. -/
theorem aluWrapsExactly : Obligations.AluWrapsExactly := by
  unfold Obligations.AluWrapsExactly
  intro u v
  have hu : u.toNat < 256 := u.isLt
  have hv : v.toNat < 256 := v.isLt
  refine ⟨?sum, ⟨u.toNat * v.toNat / 256, ?high, ?product⟩, ?_, ?_, ?_, ?_⟩
  case sum =>
    rw [alu_toNat, aluExact]
    split <;> omega
  case high => exact Nat.div_lt_of_lt_mul (Nat.mul_lt_mul'' hu hv)
  case product => rw [alu_toNat, aluExact, Nat.div_add_mod]
  · exact alu_eq_of_exact (Nat.add_zero _)
  · exact alu_eq_of_exact (Nat.zero_mul _)
  · exact alu_eq_of_exact (Nat.mul_zero _)
  · exact alu_eq_of_exact (Nat.mul_one _)

end Sys2Proof.Machine

/-! ## Memory (spec/20_memory.md R51, log entry 6) -/

namespace Sys2Proof.Machine

theorem memWrite_ge {a : Nat} (v : Byte) (s : State) (h : 256 ≤ a) :
    memWrite a v s = .error ⟨.outOfBounds, BitVec.ofNat 9 a⟩ := if_neg (Nat.not_lt.mpr h)

/-- Settles O43: `read_write` inside the 256 cells, the range checks of the primitives outside. -/
theorem memoryContract : Obligations.MemoryContract := by
  unfold Obligations.MemoryContract
  refine ⟨fun a v s ha => ⟨_, memWrite_ok v s ha, ?_, fun b hb => ?_, rfl⟩,
    fun a v s ha => ⟨memRead_ge s ha, memWrite_ge v s ha⟩⟩
  · rw [memRead_ok _ ha, byteAt_write, if_pos rfl]
  · unfold memRead
    rw [byteAt_write, if_neg hb]

theorem wfFrom_cons {lo : Nat} {c : Host.Cell} {m : Memory} :
    Memory.wfFrom lo (c :: m) = true ↔
      lo ≤ c.1 ∧ c.1 < 256 ∧ c.2 ≠ unlistedByte ∧ Memory.wfFrom (c.1 + 1) m = true := by
  simp only [Memory.wfFrom, Bool.and_eq_true, decide_eq_true_eq, and_assoc]

/-- A canonical list holds no byte that an unlisted address reads as. -/
theorem head_ne_of_wfFrom {lo : Nat} {c : Host.Cell} {m : Memory} (h : Memory.wfFrom lo (c :: m) = true) :
    c.2 ≠ unlistedByte := by
  obtain ⟨-, -, hc, -⟩ := wfFrom_cons.mp h
  exact hc

/-- A canonical list from its own first address up is canonical from there. -/
theorem wfFrom_head {lo : Nat} {c : Host.Cell} {m : Memory} (h : Memory.wfFrom lo (c :: m) = true) :
    Memory.wfFrom c.1 (c :: m) = true :=
  wfFrom_cons.mpr ⟨Nat.le_refl _, (wfFrom_cons.mp h).2⟩

theorem read_cons_self (c : Host.Cell) (m : Memory) : Memory.read (c :: m) c.1 = c.2 := by
  rw [read_cons, if_pos rfl]

/-- Of two canonical lists that read alike the second starts no later than the first: it must hold the cell the first
one starts with. -/
theorem head_le_of_read_eq {lo lo' : Nat} {c d : Host.Cell} {m m' : Memory} (h : Memory.wfFrom lo (c :: m) = true)
    (h' : Memory.wfFrom lo' (d :: m') = true) (he : ∀ a, Memory.read (c :: m) a = Memory.read (d :: m') a) :
    d.1 ≤ c.1 := by
  by_contra hlt
  exact head_ne_of_wfFrom h (by rw [← read_cons_self c m, he, read_of_lt (wfFrom_head h') (Nat.not_le.mp hlt)])

/-- By induction on the lists: the first cells are the same, and what is left reads alike. -/
theorem eq_of_read_eq {m m' : Memory} {lo lo' : Nat} (h : Memory.wfFrom lo m = true) (h' : Memory.wfFrom lo' m' = true)
    (he : ∀ a, Memory.read m a = Memory.read m' a) : m = m' := by
  induction m generalizing m' lo lo' with
  | nil =>
    cases m' with
    | nil => rfl
    | cons d m' => exact absurd ((he d.1).trans (read_cons_self d m')).symm (head_ne_of_wfFrom h')
  | cons c m ih =>
    cases m' with
    | nil => exact absurd ((read_cons_self c m).symm.trans (he c.1)) (head_ne_of_wfFrom h)
    | cons d m' =>
      obtain ⟨-, -, -, hm⟩ := wfFrom_cons.mp h
      obtain ⟨-, -, -, hm'⟩ := wfFrom_cons.mp h'
      have hAddr : c.1 = d.1 :=
        le_antisymm (head_le_of_read_eq h' h fun a => (he a).symm) (head_le_of_read_eq h h' he)
      have hValue : c.2 = d.2 := by rw [← read_cons_self c m, he, hAddr, read_cons_self]
      have hRest : ∀ a, Memory.read m a = Memory.read m' a := by
        intro a
        by_cases ha : c.1 = a
        · rw [read_of_lt hm (by omega), read_of_lt hm' (by omega)]
        · have hCons := he a
          rwa [read_cons, read_cons, if_neg ha, if_neg (hAddr ▸ ha)] at hCons
      rw [Prod.ext hAddr hValue, ih hm hm' hRest]

/-- Settles O44: the canonical form from address 0 up. -/
theorem canonicalMemoriesReadingAlikeAreEqual : Obligations.CanonicalMemoriesReadingAlikeAreEqual := by
  unfold Obligations.CanonicalMemoriesReadingAlikeAreEqual
  exact fun m m' h h' he => eq_of_read_eq h h' he

end Sys2Proof.Machine

/-! ## Reset, load and launch (spec/70_reset_and_hazards.md R210 to R216) -/

namespace Sys2Proof.Machine

/-- Settles O36: the reset state as it is written out. -/
theorem resetValues : Obligations.ResetValues := by
  unfold Obligations.ResetValues
  exact ⟨fun _ => rfl, by decide, rfl, rfl, rfl, rfl⟩

/-- Settles O40: nothing is recorded at reset, and no cell is listed. -/
theorem resetMeetsTheInvariant : Obligations.ResetMeetsTheInvariant := by
  unfold Obligations.ResetMeetsTheInvariant
  exact fun opc =>
    { mem := wf_reset
      pc := by decide
      fault := by decide
      fits := fun f h => by cases h }

theorem loadFrom_cons_lt {i : Nat} (b : Byte) (rest : List Byte) (s : State) (h : i < 256) :
    loadFrom i (b :: rest) s = loadFrom (i + 1) rest { s with mem := Memory.write s.mem i b } := by
  rw [loadFrom, memWrite_ok b s h]

/-- Bytes that fit are all loaded, in order from `i` up, and nothing else changes (R214). -/
theorem loadFrom_answers {i : Nat} {bytes : List Byte} (s : State) (h : i + bytes.length ≤ 256) :
    ∃ t, loadFrom i bytes s = .ok t ∧ t = { s with mem := t.mem } ∧
      ∀ a, t.byteAt a = if a < i then s.byteAt a else bytes.getD (a - i) (s.byteAt a) := by
  induction bytes generalizing i s with
  | nil => exact ⟨s, rfl, rfl, fun a => by simp⟩
  | cons b rest ih =>
    rw [List.length_cons] at h
    obtain ⟨t, ht, hFrame, hBytes⟩ := ih (i := i + 1) { s with mem := Memory.write s.mem i b } (by omega)
    refine ⟨t, (loadFrom_cons_lt b rest s (by omega)).trans ht, hFrame, fun a => ?_⟩
    rw [hBytes a, byteAt_write]
    obtain hlt | rfl | hgt := Nat.lt_trichotomy a i
    · rw [if_pos (by omega), if_neg (by omega), if_pos hlt]
    · simp
    · obtain ⟨k, rfl⟩ := Nat.exists_eq_add_of_lt hgt
      rw [if_neg (by omega), if_neg (by omega), if_neg (by omega)]
      simp [show i + k + 1 - (i + 1) = k by omega, show i + k + 1 - i = k + 1 by omega]

/-- Bytes that do not fit fail at the first address past the last cell (D14). -/
theorem loadFrom_tooLong {i : Nat} {bytes : List Byte} (s : State) (hi : i ≤ 256) (h : 256 < i + bytes.length) :
    loadFrom i bytes s = .error ⟨.outOfBounds, 256#9⟩ := by
  induction bytes generalizing i s with
  | nil => simp only [List.length_nil] at h; omega
  | cons b rest ih =>
    rw [List.length_cons] at h
    obtain hlt | rfl := Nat.lt_or_eq_of_le hi
    · rw [loadFrom_cons_lt b rest s hlt]
      exact ih _ hlt (by omega)
    · rw [loadFrom, memWrite_ge b s (Nat.le_refl _)]

/-- Settles O37: the program is loaded from 0 over the reset memory, and loading changes memory alone. -/
theorem launchState : Obligations.LaunchState := by
  unfold Obligations.LaunchState
  obtain ⟨hByte, hReg, hPc, hState, hFault, hOut⟩ := resetValues
  refine ⟨fun program h => ?_, fun program h => loadFrom_tooLong _ (by decide) (by omega)⟩
  obtain ⟨t, ht, hFrame, hBytes⟩ := loadFrom_answers (i := 0) (bytes := program) State.reset (by omega)
  refine ⟨t, ht, fun a => ?_, fun d => ?_, ?_, ?_, ?_, ?_⟩
  · rw [hBytes a, hByte a, if_neg (Nat.not_lt_zero a), Nat.sub_zero]
  · rw [← hReg d]; exact reg_of_x_eq (congrArg State.x hFrame) d
  · exact (congrArg State.pc hFrame).trans hPc
  · exact (congrArg State.state hFrame).trans hState
  · exact (congrArg State.fault hFrame).trans hFault
  · exact (congrArg State.out hFrame).trans hOut

/-- The moves by which the host loads a program from address `i` up (R36). -/
def loadInputs (i : Nat) (program : List Byte) : List HostInput :=
  (program.zipIdx i).map fun c => HostInput.load (BitVec.ofNat 8 c.2) c.1

theorem loadInputs_cons (i : Nat) (b : Byte) (rest : List Byte) :
    loadInputs i (b :: rest) = HostInput.load (BitVec.ofNat 8 i) b :: loadInputs (i + 1) rest := rfl

theorem input_load {i : Nat} (b : Byte) (s : State) (h : i < 256) :
    Block.input { phase := .loading, core := s } (.load (BitVec.ofNat 8 i) b) =
      some { phase := .loading, core := { s with mem := Memory.write s.mem i b } } := by
  have hAddr : (BitVec.ofNat 8 i).toNat = i := by rw [BitVec.toNat_ofNat, Nat.mod_eq_of_lt h]
  simp only [Block.input, loadCell, hAddr]

/-- The load port, byte by byte, does what `loadFrom` does in one go (R37). -/
theorem foldlM_loadInputs {i : Nat} {program : List Byte} {s t : State} (h : i + program.length ≤ 256)
    (ht : loadFrom i program s = .ok t) :
    (loadInputs i program).foldlM Block.input { phase := .loading, core := s } =
      some { phase := .loading, core := t } := by
  induction program generalizing i s with
  | nil => cases ht; rfl
  | cons b rest ih =>
    rw [List.length_cons] at h
    have hi : i < 256 := by omega
    rw [loadFrom_cons_lt b rest s hi] at ht
    rw [loadInputs_cons, List.foldlM_cons, input_load b s hi]
    exact ih (by omega) ht

/-- Settles O38: the load port and `start` one after the other; every other move is a row of `Block.input` or of
`Block.cycle`. -/
theorem loadPortThenStartReachesLaunch : Obligations.LoadPortThenStartReachesLaunch := by
  unfold Obligations.LoadPortThenStartReachesLaunch
  refine ⟨fun program h => ?_, fun b => rfl, fun b b' i hPhase hIn => ?_, fun b hPhase => ?_, fun b hPhase => ?_⟩
  · obtain ⟨t, ht, -⟩ := loadFrom_answers (i := 0) (bytes := program) State.reset (by omega)
    refine ⟨t, ht, ?_⟩
    have hLoad := foldlM_loadInputs (i := 0) (by omega) ht
    unfold loadInputs at hLoad
    rw [List.foldlM_append, Block.atReset, hLoad]
    rfl
  · cases i with
    | reset => rfl
    | load addr data => simp [Block.input, hPhase] at hIn
    | start => simp [Block.input, hPhase] at hIn
  · unfold Block.cycle
    rw [hPhase]
  · obtain ⟨t, ht⟩ : ∃ t, step b.core = .next t := cycle_answers defaultOpc b.core
    refine ⟨t, ht, ?_⟩
    unfold Block.cycle
    rw [hPhase, ht]

end Sys2Proof.Machine

/-! ## The status port, and safety of every run from launch (spec/10_state.md R30, R31, R36) -/

namespace Sys2Proof.Machine

theorem errorCode_ne_zero (k : ErrorKind) : errorCode k ≠ 0#3 := by
  cases k <;> decide

/-- A fitting record is of one of the five kinds the block raises (R178). -/
theorem FaultRecord.Fits.kind_mem {opc : Opc} {f : FaultRecord} {s : State} (h : f.Fits opc s) :
    f.kind ∈ [.outOfBounds, .invalidRegister, .unknownOpcode, .stackOverflow, .stackUnderflow] := by
  obtain ⟨-, hCause⟩ := h
  cases hk : f.kind with
  | outOfBounds | invalidRegister | unknownOpcode | stackOverflow | stackUnderflow => decide
  | unsupportedOperation | invalidProgramEncoding => rw [hk] at hCause; exact hCause.elim

theorem State.Inv.exists_fits {opc : Opc} {s : State} (h : s.Inv opc) (hs : s.state = .faulted) :
    ∃ f, s.fault = some f ∧ f.Fits opc s := by
  obtain ⟨f, hf⟩ := Option.isSome_iff_exists.mp (h.fault.mpr hs)
  exact ⟨f, hf, h.fits f hf⟩

theorem statusPort_of_fault {s : State} {f : FaultRecord} (h : s.fault = some f) :
    statusPort s = ⟨runStateCode s.state, errorCode f.kind, some f.pc, some f.info⟩ := by
  unfold statusPort
  rw [h]
  rfl

theorem statusPort_faultCode_of_none {s : State} (h : s.fault = none) : (statusPort s).faultCode = 0#3 := by
  unfold statusPort
  rw [h]

/-- Settles O39: the port shows the record, which the invariant ties to the run state and to the kinds raised. -/
theorem statusPortAgreesWithTheState : Obligations.StatusPortAgreesWithTheState := by
  unfold Obligations.StatusPortAgreesWithTheState
  intro opc s hInv
  have hCode : ∀ r, s.state = r → (statusPort s).state = runStateCode r := fun r hr => congrArg runStateCode hr
  refine ⟨hCode .running, hCode .halted, hCode .faulted, ⟨fun h0 hs => ?_, fun hs => ?_⟩, fun hs => ?_⟩
  · obtain ⟨f, hf, -⟩ := hInv.exists_fits hs
    rw [statusPort_of_fault hf] at h0
    exact errorCode_ne_zero f.kind h0
  · exact statusPort_faultCode_of_none (hInv.fault_eq_none hs)
  · obtain ⟨f, hf, hFits⟩ := hInv.exists_fits hs
    have hKind := hFits.kind_mem
    obtain ⟨hPc, -⟩ := hFits
    rw [statusPort_of_fault hf]
    refine ⟨f, hf, congrArg some hPc, rfl, ?_⟩
    simp only [List.mem_cons, List.not_mem_nil, or_false] at hKind
    obtain hk | hk | hk | hk | hk := hKind <;> simp [hk, errorCode]

/-- The invariant holds along every run that begins with it: O41, by induction on the number of steps. -/
theorem State.Inv.run {n : Nat} {s t : State} (h : s.Inv defaultOpc)
    (ht : Host.Core.run Sys2Proof.core n s = .next t) : t.Inv defaultOpc := by
  induction n generalizing s with
  | zero => cases (run_zero s).symm.trans ht; exact h
  | succ n ih =>
    obtain ⟨u, hu⟩ := cycle_answers defaultOpc s
    rw [run_succ hu] at ht
    exact ih (stepKeepsTheInvariant defaultOpc s u h hu) ht

theorem inv_of_launch {opc : Opc} {program : List Byte} {s : State} (h : launch program = .ok s) : s.Inv opc := by
  obtain ⟨hFits, hTooLong⟩ := launchState
  have hLen : program.length ≤ 256 := by
    by_contra hlt
    cases (hTooLong program (Nat.not_le.mp hlt)).symm.trans h
  obtain ⟨t, ht, -, -, hPc, hState, hFault, -⟩ := hFits program hLen
  cases ht.symm.trans h
  exact
    { mem := wf_loadFrom wf_reset h
      pc := by rw [hPc]; decide
      fault := by rw [hFault, hState]; decide
      fits := fun f hf => by cases hFault.symm.trans hf }

/-- Settles O42: the launch state meets the invariant, every run keeps it, and in a terminal state the invariant is what
is claimed of the end. -/
theorem everyRunFromLaunchIsSafe : Obligations.EveryRunFromLaunchIsSafe := by
  unfold Obligations.EveryRunFromLaunchIsSafe
  intro program s n h
  obtain ⟨t, ht⟩ := everyRunAnswersAState n s
  have hInv : t.Inv defaultOpc := (inv_of_launch h).run ht
  refine ⟨t, ht, hInv, fun hT => ?_⟩
  cases hs : t.state with
  | running => exact absurd hs hT
  | halted => exact .inl ⟨hs, hInv.fault_eq_none (by rw [hs]; decide)⟩
  | faulted => exact .inr ⟨rfl, hInv.exists_fits hs⟩

end Sys2Proof.Machine
